-- ==== Sys2Proof/Word.lean ====
section
/-! DEFINITION. The word types of the machine: every register, field and memory byte is an unsigned
integer of a fixed width (00_scope.md R6, R7). -/

namespace Sys2Proof

/-- A general register, a timer or a memory byte: 8 bits (10_state.md R20, R28, R30). -/
abbrev Byte := BitVec 8

/-- I, PC, a stack entry, an opcode: 16 bits (10_state.md R22, R23, R26; 30_encoding.md R70). -/
abbrev Word := BitVec 16

/-- One of digit1 to digit4 of an opcode (30_encoding.md R71). -/
abbrev Nibble := BitVec 4

/-- The field nnn (30_encoding.md R71). -/
abbrev Addr12 := BitVec 12

/-- The index of one of the 16 registers V0 to VF, or of one of the 16 keys (10_state.md R20, R32). -/
abbrev Index := Fin 16

end Sys2Proof
end

