-- ==== Sys2Proof/Config.lean ====
section
/-! DEFINITION. What an implementation fixes (FONT_BASE, FONT_DATA) and the free value of Cxkk. The
constants without a body are open: no proof can see a value of them (00_scope.md R5, R11). -/

namespace Sys2Proof.Config

/-- FONT_BASE, the address of the font table, left open with `FONT_BASE + 80 <= 0x200`
(10_state.md R33, 92_eei_decisions.md D2). DESIGN CHOICE, safe: log 3. -/
opaque fontBase : Fin 433

/-- FONT_DATA, the 80 glyph bytes, left open (10_state.md R34, 92_eei_decisions.md D3).
DESIGN CHOICE, safe: log 4. -/
opaque fontData : Fin 80 → Byte

/-- `draw8()`: the free byte that the environment supplies to the n-th execution of Cxkk, under no
law (00_scope.md R11, 42_load_alu.md R133). DESIGN CHOICE, safe: log 5. -/
opaque drawByte : Nat → Byte

/-- The default of the parameter FONT_DATA (10_state.md R34). A claim that depends on glyph shapes
names this table; the machine itself runs with `fontData`. PRESUMED, safe: log 4. -/
def defaultFontData : Vector Byte 80 := #v[
  0xF0, 0x90, 0x90, 0x90, 0xF0,  0x20, 0x60, 0x20, 0x20, 0x70,
  0xF0, 0x10, 0xF0, 0x80, 0xF0,  0xF0, 0x10, 0xF0, 0x10, 0xF0,
  0x90, 0x90, 0xF0, 0x10, 0x10,  0xF0, 0x80, 0xF0, 0x10, 0xF0,
  0xF0, 0x80, 0xF0, 0x90, 0xF0,  0xF0, 0x10, 0x20, 0x40, 0x40,
  0xF0, 0x90, 0xF0, 0x90, 0xF0,  0xF0, 0x90, 0xF0, 0x10, 0xF0,
  0xF0, 0x90, 0xF0, 0x90, 0x90,  0xE0, 0x90, 0xE0, 0x90, 0xE0,
  0xF0, 0x80, 0x80, 0x80, 0xF0,  0xE0, 0x90, 0x90, 0x90, 0xE0,
  0xF0, 0x80, 0xF0, 0x80, 0xF0,  0xF0, 0x80, 0xF0, 0x80, 0x80]

end Sys2Proof.Config
end

