-- ==== Sys2Proof/Syntax.lean ====
section
/-! DEFINITION. The instruction set: one constructor for each of the 35 rows of the opcode table
(30_encoding.md R74 to R78), with the operand fields its format gives it (R72, R73). -/

namespace Sys2Proof

/-- An instruction. The pattern of each constructor is its row's; `x`, `y`, `n` are 4-bit fields,
`kk` the low byte and `nnn` the low 12 bits of the opcode (30_encoding.md R71). -/
inductive Instr where
  /-- 0000: no operation (R95). -/
  | nop
  /-- 00E0: clear the framebuffer (R150). -/
  | cls
  /-- 00EE: return (R100). -/
  | ret
  /-- 1nnn: jump (R101). -/
  | jp (nnn : Addr12)
  /-- 2nnn: call (R102). -/
  | call (nnn : Addr12)
  /-- 3xkk: skip if Vx = kk (R103). -/
  | seImm (x : Index) (kk : Byte)
  /-- 4xkk: skip if Vx ≠ kk (R104). -/
  | sneImm (x : Index) (kk : Byte)
  /-- 5xy0: skip if Vx = Vy (R105). -/
  | seReg (x y : Index)
  /-- 6xkk: Vx = kk (R122). -/
  | ldImm (x : Index) (kk : Byte)
  /-- 7xkk: Vx = Vx + kk (R123). -/
  | addImm (x : Index) (kk : Byte)
  /-- 8xy0: Vx = Vy (R124). -/
  | ldReg (x y : Index)
  /-- 8xy1: Vx = Vx or Vy (R125). -/
  | orReg (x y : Index)
  /-- 8xy2: Vx = Vx and Vy (R126). -/
  | andReg (x y : Index)
  /-- 8xy3: Vx = Vx xor Vy (R127). -/
  | xorReg (x y : Index)
  /-- 8xy4: Vx = Vx + Vy, VF = carry (R128). -/
  | addReg (x y : Index)
  /-- 8xy5: Vx = Vx - Vy, VF = no borrow (R129). -/
  | sub (x y : Index)
  /-- 8xy6: Vx = Vx >> 1, VF = bit 0; y is a don't-care (R130, R80). -/
  | shr (x y : Index)
  /-- 8xy7: Vx = Vy - Vx, VF = no borrow (R131). -/
  | subn (x y : Index)
  /-- 8xyE: Vx = Vx << 1, VF = bit 7; y is a don't-care (R132, R80). -/
  | shl (x y : Index)
  /-- 9xy0: skip if Vx ≠ Vy (R106). -/
  | sneReg (x y : Index)
  /-- Annn: I = nnn (R140). -/
  | ldI (nnn : Addr12)
  /-- Bnnn: jump to V0 + nnn (R107). -/
  | jpV0 (nnn : Addr12)
  /-- Cxkk: Vx = random byte and kk (R133). -/
  | rnd (x : Index) (kk : Byte)
  /-- Dxyn: draw an n-row sprite at (Vx, Vy) (R151). -/
  | draw (x y n : Index)
  /-- Ex9E: skip if key Vx is pressed (R160). -/
  | skp (x : Index)
  /-- ExA1: skip if key Vx is not pressed (R161). -/
  | sknp (x : Index)
  /-- Fx07: Vx = DT (R162). -/
  | ldVxDt (x : Index)
  /-- Fx0A: wait for a key press (R163). -/
  | ldVxK (x : Index)
  /-- Fx15: DT = Vx (R165). -/
  | ldDtVx (x : Index)
  /-- Fx18: ST = Vx (R166). -/
  | ldStVx (x : Index)
  /-- Fx1E: I = I + Vx (R141). -/
  | addI (x : Index)
  /-- Fx29: I = FONT_BASE + 5 * Vx (R142). -/
  | ldF (x : Index)
  /-- Fx33: decimal digits of Vx to memory at I (R143). -/
  | ldB (x : Index)
  /-- Fx55: V0 to Vx to memory at I (R144). -/
  | store (x : Index)
  /-- Fx65: V0 to Vx from memory at I (R145). -/
  | load (x : Index)
  deriving DecidableEq, Repr

end Sys2Proof
end

