-- ==== Sys2Proof/WellFormed.lean ====
section
/-! DEFINITION. What makes an instruction or a program image well formed: every operand fits its
field (30_encoding.md R71, R73), and an image fits between 0x200 and 0xFFF (60_exceptions.md R191). -/

namespace Sys2Proof

/-- A value fits a field of `width` bits. -/
def fits (width v : Nat) : Bool := decide (v < 2 ^ width)

/-- The operand fields of an instruction: the width of each in bits, and its value (30_encoding.md
R71, R72). -/
def Instr.fields : Instr → List (Nat × Nat)
  | .nop => []
  | .cls => []
  | .ret => []
  | .jp nnn => [(12, nnn.toNat)]
  | .call nnn => [(12, nnn.toNat)]
  | .seImm x kk => [(4, x.val), (8, kk.toNat)]
  | .sneImm x kk => [(4, x.val), (8, kk.toNat)]
  | .seReg x y => [(4, x.val), (4, y.val)]
  | .ldImm x kk => [(4, x.val), (8, kk.toNat)]
  | .addImm x kk => [(4, x.val), (8, kk.toNat)]
  | .ldReg x y => [(4, x.val), (4, y.val)]
  | .orReg x y => [(4, x.val), (4, y.val)]
  | .andReg x y => [(4, x.val), (4, y.val)]
  | .xorReg x y => [(4, x.val), (4, y.val)]
  | .addReg x y => [(4, x.val), (4, y.val)]
  | .sub x y => [(4, x.val), (4, y.val)]
  | .shr x y => [(4, x.val), (4, y.val)]
  | .subn x y => [(4, x.val), (4, y.val)]
  | .shl x y => [(4, x.val), (4, y.val)]
  | .sneReg x y => [(4, x.val), (4, y.val)]
  | .ldI nnn => [(12, nnn.toNat)]
  | .jpV0 nnn => [(12, nnn.toNat)]
  | .rnd x kk => [(4, x.val), (8, kk.toNat)]
  | .draw x y n => [(4, x.val), (4, y.val), (4, n.val)]
  | .skp x => [(4, x.val)]
  | .sknp x => [(4, x.val)]
  | .ldVxDt x => [(4, x.val)]
  | .ldVxK x => [(4, x.val)]
  | .ldDtVx x => [(4, x.val)]
  | .ldStVx x => [(4, x.val)]
  | .addI x => [(4, x.val)]
  | .ldF x => [(4, x.val)]
  | .ldB x => [(4, x.val)]
  | .store x => [(4, x.val)]
  | .load x => [(4, x.val)]

/-- Every operand fits its field. The operand types already carry these bounds (an ill-formed operand
cannot be built), so this holds of every instruction: `Laws.wellFormed_all`. -/
def Instr.wellFormed (i : Instr) : Bool := i.fields.all fun f => fits f.1 f.2

/-- A program image that `LoadProgram` accepts: at most 3584 bytes (60_exceptions.md R191). -/
def imageFits (image : List Byte) : Bool := decide (image.length ≤ 3584)

end Sys2Proof
end

