-- ==== Sys2Proof/Decode.lean ====
section
/-! DEFINITION. The decoder, total on any bytes and rejecting by name (30_encoding.md R70 to R81), the
opcode table as data, and the encoder written from the same table. -/

namespace Sys2Proof

/-- Why bytes decode to no instruction. -/
inductive DecodeError where
  /-- Fewer than two bytes are left (30_encoding.md R70). -/
  | truncated
  /-- The word matches none of the 35 rows; it carries the raw word (30_encoding.md R79). -/
  | invalidOpcode (w : Word)
  deriving DecidableEq, Repr

/-- The opcode in two consecutive bytes, the lower address first: big-endian, `MEM[PC] * 256 + MEM[PC+1]`
(20_memory.md R51). -/
def wordOfBytes (hi lo : Byte) : Word := BitVec.ofNat 16 (hi.toNat * 256 + lo.toNat)

/-- digit1, bits 15:12 (30_encoding.md R71). -/
def digit1 (w : Word) : Nibble := BitVec.ofNat 4 (w.toNat / 4096)

/-- digit2, bits 11:8, the field x (30_encoding.md R71). -/
def digit2 (w : Word) : Nibble := BitVec.ofNat 4 (w.toNat / 256)

/-- digit3, bits 7:4, the field y (30_encoding.md R71). -/
def digit3 (w : Word) : Nibble := BitVec.ofNat 4 (w.toNat / 16)

/-- digit4, bits 3:0, the field n (30_encoding.md R71). -/
def digit4 (w : Word) : Nibble := BitVec.ofNat 4 w.toNat

/-- The word made of four digits, digit1 the most significant (30_encoding.md R71). -/
def ofDigits (d1 d2 d3 d4 : Nibble) : Word :=
  BitVec.ofNat 16 (d1.toNat * 4096 + d2.toNat * 256 + d3.toNat * 16 + d4.toNat)

/-- The field kk: digit3 and digit4 (30_encoding.md R71). -/
def kkOf (d3 d4 : Nibble) : Byte := BitVec.ofNat 8 (d3.toNat * 16 + d4.toNat)

/-- The field nnn: digit2, digit3 and digit4 (30_encoding.md R71). -/
def nnnOf (d2 d3 d4 : Nibble) : Addr12 := BitVec.ofNat 12 (d2.toNat * 256 + d3.toNat * 16 + d4.toNat)

/-- A digit as a register index, or as the row count n (30_encoding.md R73). -/
def indexOf (d : Nibble) : Index := ⟨d.toNat, d.isLt⟩

/-- A register index, or the count n, as a digit. -/
def digitOf (x : Index) : Nibble := BitVec.ofNat 4 x.val

/-- Major opcode 0: exactly three words, told apart by nnn (30_encoding.md R74). -/
def decodeMajor0 (nnn : Addr12) : Option Instr :=
  if nnn = 0x000#12 then some .nop
  else if nnn = 0x0E0#12 then some .cls
  else if nnn = 0x0EE#12 then some .ret
  else none

/-- Major opcode 8, selected by digit4 (30_encoding.md R76). -/
def decodeMajor8 (x y : Index) (d4 : Nibble) : Option Instr :=
  if d4 = 0x0#4 then some (.ldReg x y)
  else if d4 = 0x1#4 then some (.orReg x y)
  else if d4 = 0x2#4 then some (.andReg x y)
  else if d4 = 0x3#4 then some (.xorReg x y)
  else if d4 = 0x4#4 then some (.addReg x y)
  else if d4 = 0x5#4 then some (.sub x y)
  else if d4 = 0x6#4 then some (.shr x y)
  else if d4 = 0x7#4 then some (.subn x y)
  else if d4 = 0xE#4 then some (.shl x y)
  else none

/-- Major opcode E, selected by the low byte (30_encoding.md R77). -/
def decodeMajorE (x : Index) (kk : Byte) : Option Instr :=
  if kk = 0x9E#8 then some (.skp x)
  else if kk = 0xA1#8 then some (.sknp x)
  else none

/-- Major opcode F, selected by the low byte (30_encoding.md R78). -/
def decodeMajorF (x : Index) (kk : Byte) : Option Instr :=
  if kk = 0x07#8 then some (.ldVxDt x)
  else if kk = 0x0A#8 then some (.ldVxK x)
  else if kk = 0x15#8 then some (.ldDtVx x)
  else if kk = 0x18#8 then some (.ldStVx x)
  else if kk = 0x1E#8 then some (.addI x)
  else if kk = 0x29#8 then some (.ldF x)
  else if kk = 0x33#8 then some (.ldB x)
  else if kk = 0x55#8 then some (.store x)
  else if kk = 0x65#8 then some (.load x)
  else none

/-- Dispatch on the nibble pattern (30_encoding.md R74 to R78); `none` is an invalid opcode (R79). -/
def decodeDigits (d1 d2 d3 d4 : Nibble) : Option Instr :=
  if d1 = 0x0#4 then decodeMajor0 (nnnOf d2 d3 d4)
  else if d1 = 0x1#4 then some (.jp (nnnOf d2 d3 d4))
  else if d1 = 0x2#4 then some (.call (nnnOf d2 d3 d4))
  else if d1 = 0x3#4 then some (.seImm (indexOf d2) (kkOf d3 d4))
  else if d1 = 0x4#4 then some (.sneImm (indexOf d2) (kkOf d3 d4))
  else if d1 = 0x5#4 then (if d4 = 0x0#4 then some (.seReg (indexOf d2) (indexOf d3)) else none)
  else if d1 = 0x6#4 then some (.ldImm (indexOf d2) (kkOf d3 d4))
  else if d1 = 0x7#4 then some (.addImm (indexOf d2) (kkOf d3 d4))
  else if d1 = 0x8#4 then decodeMajor8 (indexOf d2) (indexOf d3) d4
  else if d1 = 0x9#4 then (if d4 = 0x0#4 then some (.sneReg (indexOf d2) (indexOf d3)) else none)
  else if d1 = 0xA#4 then some (.ldI (nnnOf d2 d3 d4))
  else if d1 = 0xB#4 then some (.jpV0 (nnnOf d2 d3 d4))
  else if d1 = 0xC#4 then some (.rnd (indexOf d2) (kkOf d3 d4))
  else if d1 = 0xD#4 then some (.draw (indexOf d2) (indexOf d3) (indexOf d4))
  else if d1 = 0xE#4 then decodeMajorE (indexOf d2) (kkOf d3 d4)
  else decodeMajorF (indexOf d2) (kkOf d3 d4)  -- the one digit left, 0xF

/-- The instruction a word stands for, or the invalid-opcode error with the raw word
(30_encoding.md R79, R81). -/
def decodeWord (w : Word) : Except DecodeError Instr :=
  match decodeDigits (digit1 w) (digit2 w) (digit3 w) (digit4 w) with
  | some i => .ok i
  | none => .error (.invalidOpcode w)

/-- The instruction at the head of a byte stream and the bytes after it (30_encoding.md R70). -/
def decodeBytes : List Byte → Except DecodeError (Instr × List Byte)
  | hi :: lo :: rest => (decodeWord (wordOfBytes hi lo)).map fun i => (i, rest)
  | [_] => .error .truncated
  | [] => .error .truncated

/-- A word of format NNN: major opcode and address (30_encoding.md R72). -/
def wordNNN (major : Nibble) (nnn : Addr12) : Word :=
  BitVec.ofNat 16 (major.toNat * 4096 + nnn.toNat)

/-- A word of format XKK or X: major opcode, register and byte (30_encoding.md R72). -/
def wordXKK (major : Nibble) (x : Index) (kk : Byte) : Word :=
  BitVec.ofNat 16 (major.toNat * 4096 + x.val * 256 + kk.toNat)

/-- A word of format XY or XYN: major opcode, two registers and the last digit (30_encoding.md R72). -/
def wordXY (major : Nibble) (x y : Index) (last : Nibble) : Word :=
  ofDigits major (digitOf x) (digitOf y) last

/-- The word of a well-formed instruction, from the encoding tables (30_encoding.md R72 to R78). -/
def encode : Instr → Word
  | .nop => 0x0000#16
  | .cls => 0x00E0#16
  | .ret => 0x00EE#16
  | .jp nnn => wordNNN 0x1#4 nnn
  | .call nnn => wordNNN 0x2#4 nnn
  | .seImm x kk => wordXKK 0x3#4 x kk
  | .sneImm x kk => wordXKK 0x4#4 x kk
  | .seReg x y => wordXY 0x5#4 x y 0x0#4
  | .ldImm x kk => wordXKK 0x6#4 x kk
  | .addImm x kk => wordXKK 0x7#4 x kk
  | .ldReg x y => wordXY 0x8#4 x y 0x0#4
  | .orReg x y => wordXY 0x8#4 x y 0x1#4
  | .andReg x y => wordXY 0x8#4 x y 0x2#4
  | .xorReg x y => wordXY 0x8#4 x y 0x3#4
  | .addReg x y => wordXY 0x8#4 x y 0x4#4
  | .sub x y => wordXY 0x8#4 x y 0x5#4
  | .shr x y => wordXY 0x8#4 x y 0x6#4
  | .subn x y => wordXY 0x8#4 x y 0x7#4
  | .shl x y => wordXY 0x8#4 x y 0xE#4
  | .sneReg x y => wordXY 0x9#4 x y 0x0#4
  | .ldI nnn => wordNNN 0xA#4 nnn
  | .jpV0 nnn => wordNNN 0xB#4 nnn
  | .rnd x kk => wordXKK 0xC#4 x kk
  | .draw x y n => wordXY 0xD#4 x y (digitOf n)
  | .skp x => wordXKK 0xE#4 x 0x9E#8
  | .sknp x => wordXKK 0xE#4 x 0xA1#8
  | .ldVxDt x => wordXKK 0xF#4 x 0x07#8
  | .ldVxK x => wordXKK 0xF#4 x 0x0A#8
  | .ldDtVx x => wordXKK 0xF#4 x 0x15#8
  | .ldStVx x => wordXKK 0xF#4 x 0x18#8
  | .addI x => wordXKK 0xF#4 x 0x1E#8
  | .ldF x => wordXKK 0xF#4 x 0x29#8
  | .ldB x => wordXKK 0xF#4 x 0x33#8
  | .store x => wordXKK 0xF#4 x 0x55#8
  | .load x => wordXKK 0xF#4 x 0x65#8

/-- The upper byte of a word, the one at the lower address (20_memory.md R51). -/
def hiByte (w : Word) : Byte := BitVec.ofNat 8 (w.toNat / 256)

/-- The lower byte of a word. -/
def loByte (w : Word) : Byte := BitVec.ofNat 8 w.toNat

/-- The bytes of an instruction as memory holds them, high byte first (30_encoding.md R70). -/
def encodeBytes (i : Instr) : List Byte := [hiByte (encode i), loByte (encode i)]

/-- A row of the opcode table: a word selects it when `w and mask = pattern` (30_encoding.md section 3,
where the pattern's fixed bits are called match). -/
structure Row where
  mnemonic : String
  mask : Word
  pattern : Word
  deriving DecidableEq, Repr

/-- A word selects a row (30_encoding.md section 3). -/
def Row.selects (r : Row) (w : Word) : Bool := decide (w &&& r.mask = r.pattern)

/-- The row of an instruction (30_encoding.md R74 to R78). -/
def Instr.row : Instr → Row
  | .nop => ⟨"NOP", 0xFFFF, 0x0000⟩
  | .cls => ⟨"CLS", 0xFFFF, 0x00E0⟩
  | .ret => ⟨"RET", 0xFFFF, 0x00EE⟩
  | .jp _ => ⟨"JP", 0xF000, 0x1000⟩
  | .call _ => ⟨"CALL", 0xF000, 0x2000⟩
  | .seImm _ _ => ⟨"SE_IMM", 0xF000, 0x3000⟩
  | .sneImm _ _ => ⟨"SNE_IMM", 0xF000, 0x4000⟩
  | .seReg _ _ => ⟨"SE_REG", 0xF00F, 0x5000⟩
  | .ldImm _ _ => ⟨"LD_IMM", 0xF000, 0x6000⟩
  | .addImm _ _ => ⟨"ADD_IMM", 0xF000, 0x7000⟩
  | .ldReg _ _ => ⟨"LD_REG", 0xF00F, 0x8000⟩
  | .orReg _ _ => ⟨"OR", 0xF00F, 0x8001⟩
  | .andReg _ _ => ⟨"AND", 0xF00F, 0x8002⟩
  | .xorReg _ _ => ⟨"XOR", 0xF00F, 0x8003⟩
  | .addReg _ _ => ⟨"ADD_REG", 0xF00F, 0x8004⟩
  | .sub _ _ => ⟨"SUB", 0xF00F, 0x8005⟩
  | .shr _ _ => ⟨"SHR", 0xF00F, 0x8006⟩
  | .subn _ _ => ⟨"SUBN", 0xF00F, 0x8007⟩
  | .shl _ _ => ⟨"SHL", 0xF00F, 0x800E⟩
  | .sneReg _ _ => ⟨"SNE_REG", 0xF00F, 0x9000⟩
  | .ldI _ => ⟨"LD_I", 0xF000, 0xA000⟩
  | .jpV0 _ => ⟨"JP_V0", 0xF000, 0xB000⟩
  | .rnd _ _ => ⟨"RND", 0xF000, 0xC000⟩
  | .draw _ _ _ => ⟨"DRAW", 0xF000, 0xD000⟩
  | .skp _ => ⟨"SKP", 0xF0FF, 0xE09E⟩
  | .sknp _ => ⟨"SKNP", 0xF0FF, 0xE0A1⟩
  | .ldVxDt _ => ⟨"LD_VX_DT", 0xF0FF, 0xF007⟩
  | .ldVxK _ => ⟨"LD_VX_K", 0xF0FF, 0xF00A⟩
  | .ldDtVx _ => ⟨"LD_DT_VX", 0xF0FF, 0xF015⟩
  | .ldStVx _ => ⟨"LD_ST_VX", 0xF0FF, 0xF018⟩
  | .addI _ => ⟨"ADD_I", 0xF0FF, 0xF01E⟩
  | .ldF _ => ⟨"LD_F", 0xF0FF, 0xF029⟩
  | .ldB _ => ⟨"LD_B", 0xF0FF, 0xF033⟩
  | .store _ => ⟨"STORE", 0xF0FF, 0xF055⟩
  | .load _ => ⟨"LOAD", 0xF0FF, 0xF065⟩

/-- One instruction of each of the first twenty rows of spec/opcode_table.json, in its order. -/
def firstRowInstrs : List Instr :=
  [.nop, .cls, .ret, .jp 0, .call 0, .seImm 0 0, .sneImm 0 0, .seReg 0 0, .ldImm 0 0, .addImm 0 0,
   .ldReg 0 0, .orReg 0 0, .andReg 0 0, .xorReg 0 0, .addReg 0 0, .sub 0 0, .shr 0 0, .subn 0 0,
   .shl 0 0, .sneReg 0 0]

/-- One instruction of each of the last fifteen rows of spec/opcode_table.json, in its order. -/
def lastRowInstrs : List Instr :=
  [.ldI 0, .jpV0 0, .rnd 0 0, .draw 0 0 0, .skp 0, .sknp 0, .ldVxDt 0, .ldVxK 0, .ldDtVx 0, .ldStVx 0,
   .addI 0, .ldF 0, .ldB 0, .store 0, .load 0]

/-- The opcode table, its 35 rows in the order of spec/opcode_table.json (30_encoding.md R74 to R78). -/
def opcodeTable : List Row := (firstRowInstrs ++ lastRowInstrs).map Instr.row

/-- The instruction of an opcode-table word `w` of `nbits` bits, bit 0 the least significant of the
word: the word is laid out high byte first, as memory holds it, and given to the decoder. -/
def decodeTableWord (nbits w : Nat) : Option Instr :=
  let word : Word := BitVec.ofNat 16 (w % 2 ^ nbits)
  match decodeBytes [hiByte word, loByte word] with
  | .ok (i, _) => some i
  | .error _ => none

end Sys2Proof
end

