-- ==== Sys2Proof/Machine/State.lean ====
section
/-! DEFINITION. The state of the machine as plain data: every piece of state of 10_state.md, and three
fields of the model's own that stand for the host's inputs (10_state.md R38). -/

namespace Sys2Proof.Machine

/-- Memory: the bytes that differ from what an unlisted address reads as, as (address, byte) pairs with
strictly rising addresses (20_memory.md R50, R54). `Memory.wf` says the form. -/
abbrev Memory := List Host.Cell

/-- The framebuffer: 32 rows of 64 pixels, `fb[row][col]`, true when set (10_state.md R31; log 25). -/
abbrev Framebuffer := Vector (Vector Bool 64) 32

/-- The five kinds of fatal fault (60_exceptions.md R170). -/
inductive FaultKind where
  /-- A word outside the 35 patterns was executed (R171). -/
  | invalidOpcode
  /-- CALL at depth 16 (R172). -/
  | stackOverflow
  /-- RET at depth 0 (R173). -/
  | stackUnderflow
  /-- A fetch or data access would touch an address of 4096 or more (R174). -/
  | addressOutOfRange
  /-- SKP or SKNP with a key index above 15 (R175). -/
  | keyOutOfRange
  deriving DecidableEq, Repr

/-- What the fault latch holds: a kind and 16 bits of information (10_state.md R36). -/
structure FaultRecord where
  kind : FaultKind
  info : Word
  deriving DecidableEq, Repr

/-- The transactions of the host interface (60_exceptions.md R183). A key index is 0 to 15: another
index is outside the interface and has no move (R186; log 21). -/
inductive Transaction where
  /-- Reinitialise everything (70_reset_and_hazards.md R200). -/
  | reset
  /-- Copy a program image to memory at 0x200 (R191). -/
  | loadProgram (image : List Byte)
  /-- One fetch-decode-execute cycle (40_step_cycle.md R90). -/
  | stepInstruction
  /-- Decrement both timers (R185). -/
  | stepTimer
  /-- Set or clear a key (R186). -/
  | keySet (key : Index) (pressed : Bool)
  /-- Read all pixels (R188). -/
  | readFramebuffer
  /-- Read ST and the tone request (R189). -/
  | readSound
  /-- Read FAULT, WAIT and WAITX (R190). -/
  | readStatus
  deriving DecidableEq, Repr

/-- The machine's state. -/
structure State where
  /-- V0 to VF (10_state.md R20); VF is `v[15]`, also the flag register (R21). -/
  v : Vector Byte 16
  /-- I, the index register (R22). -/
  i : Word
  /-- PC; during execution already the address of the next instruction (R23). -/
  pc : Word
  /-- SP, the number of return addresses held, 0 to 16 (R25; log 26). -/
  sp : Fin 17
  /-- STACK[0..15], the return addresses (R26). -/
  stack : Vector Word 16
  /-- DT, the delay timer (R28). -/
  dt : Byte
  /-- ST, the sound timer (R28). -/
  st : Byte
  /-- MEM, 4096 bytes (R30). -/
  mem : Memory
  /-- FB, the framebuffer (R31). -/
  fb : Framebuffer
  /-- KEYS, true when pressed (R32). -/
  keys : Vector Bool 16
  /-- WAIT: an Fx0A waits for a key press (R35). -/
  wait : Bool
  /-- WAITX: the register the key code goes to, meaningful while `wait` (R35; log 24). -/
  waitx : Index
  /-- FAULT, the fault latch; the core is halted while it is not none (R36). -/
  fault : Option FaultRecord
  /-- The model's own: how many free bytes Cxkk has consumed (00_scope.md R11; log 5). -/
  draws : Nat
  /-- The model's own: the host's pending transactions, the next one first
  (70_reset_and_hazards.md R206; log 2). -/
  schedule : List Transaction
  /-- The model's own: no StepInstruction has run since the last Reset, so that LoadProgram is still in
  order (92_eei_decisions.md D19; log 19). -/
  launching : Bool
  deriving DecidableEq, Repr

/-- Why a step stops with a fault. -/
inductive Fault where
  /-- Raised by a StepInstruction of the halted core, which returns the latched fault again and changes
  nothing (60_exceptions.md R177). Safe: the spec itself ends the run there (log 1). The step that
  raises a fault is a next state with the fault latched, not this. -/
  | halted (f : FaultRecord)
  deriving DecidableEq, Repr

/-- Why a step is refused. -/
inductive Refusal where
  /-- An instruction without a meaning; `exec` has no such arm. Safe. -/
  | notModelled (mnemonic : String)
  /-- Raised by LoadProgram with an image of more than 3584 bytes, which the interface refuses with no
  change of state (60_exceptions.md R191). Safe: nothing is claimed of it (log 19). -/
  | imageTooLong (length : Nat)
  /-- Raised by LoadProgram after a StepInstruction since the last Reset, to which the spec gives no move
  (92_eei_decisions.md D19). Safe: nothing is claimed of it (log 19). -/
  | loadInMidRun
  deriving DecidableEq, Repr

/-- The three outcomes of a step of this machine. -/
abbrev Result := Host.Outcome State Fault Refusal

/-- The machine right after reset (10_state.md R39). Memory lists nothing: an unlisted address reads as
the reset contents, the font table and zeros (log 7). The last three fields are the model's own. -/
def State.reset : State where
  v := Vector.replicate 16 0
  i := 0
  pc := 0x200
  sp := 0
  stack := Vector.replicate 16 0
  dt := 0
  st := 0
  mem := []
  fb := Vector.replicate 32 (Vector.replicate 64 false)
  keys := Vector.replicate 16 false
  wait := false
  waitx := 0
  fault := none
  draws := 0
  schedule := []
  launching := true

end Sys2Proof.Machine
end

