-- ==== Sys2Proof/Machine/Ops.lean ====
section
/-! DEFINITION. The named operations over memory, registers, stack, framebuffer and keys, and taking a
fault as one shared operation. -/

namespace Sys2Proof.Machine

/-! ### Memory -/

/-- The reset contents of memory for a font table `data` at `base`: the 80 font bytes inside
0x000..0x1FF, every other byte 0 (20_memory.md R54, 10_state.md R33, R39). -/
def resetByte (base : Nat) (data : Fin 80 → Byte) (a : Nat) : Byte :=
  if a < 0x200 then
    if h : base ≤ a ∧ a - base < 80 then data ⟨a - base, h.2⟩ else 0
  else 0

/-- What an address that memory does not list reads as: its reset contents (10_state.md R39; log 7). -/
def Memory.unlisted (a : Nat) : Byte := resetByte Config.fontBase.val Config.fontData a

/-- The byte at an address. -/
def Memory.read : Memory → Nat → Byte
  | [], a => Memory.unlisted a
  | (k, c) :: m, a => if a = k then c else Memory.read m a

/-- Put a cell before the others, unless the byte is what its address reads as unlisted. -/
def Memory.cons (a : Nat) (b : Byte) (m : Memory) : Memory :=
  if b = Memory.unlisted a then m else (a, b) :: m

/-- Store a byte, keeping the canonical form: addresses rising, no cell equal to the unlisted byte. -/
def Memory.write : Memory → Nat → Byte → Memory
  | [], a, b => Memory.cons a b []
  | (k, c) :: m, a, b =>
    if a < k then Memory.cons a b ((k, c) :: m)
    else if a = k then Memory.cons a b m
    else (k, c) :: Memory.write m a b

/-- The `n` bytes from `a` on, ascending: MemRead without its range check (00_scope.md R9). -/
def Memory.readBytes (m : Memory) (a n : Nat) : List Byte :=
  (List.range n).map fun k => Memory.read m (a + k)

/-- Store bytes from `a` on, ascending: MemWrite without its range check (00_scope.md R9). -/
def Memory.writeBytes : Memory → Nat → List Byte → Memory
  | m, _, [] => m
  | m, a, b :: bs => Memory.writeBytes (Memory.write m a b) (a + 1) bs

/-- The addresses of a memory's cells rise strictly from `low` on and stay below 4096, and no cell equals
the unlisted byte. -/
def Memory.wfFrom (low : Nat) : Memory → Bool
  | [] => true
  | (k, c) :: m =>
    decide (low ≤ k) && decide (k < 4096) && decide (c ≠ Memory.unlisted k) && Memory.wfFrom (k + 1) m

/-- The canonical form of memory. -/
def Memory.wf (m : Memory) : Bool := Memory.wfFrom 0 m

/-! ### Registers -/

/-- `V[x]` (00_scope.md R8). -/
def State.getV (s : State) (x : Index) : Byte := s.v[x]

/-- `V[x] <- b` (00_scope.md R8). -/
def State.setV (s : State) (x : Index) (b : Byte) : State := { s with v := s.v.set x.val b x.isLt }

/-- VF, the register that doubles as the flag (10_state.md R21). -/
def vf : Index := 15

/-- `V[0..x] <- bytes`, the registers above x unchanged (43_index_memory.md R145). -/
def State.setLowV (s : State) (x : Index) (bytes : Nat → Byte) : State :=
  { s with v := Vector.ofFn fun k : Fin 16 => if k ≤ x then bytes k.val else s.v[k] }

/-- `PC <- PC + 2 mod 2^16`: the advance at fetch and the skip (40_step_cycle.md R92, 41_control_flow.md
R108). -/
def State.advance (s : State) : State := { s with pc := s.pc + 2 }

/-- Skip the next instruction when the condition holds (41_control_flow.md R108). -/
def State.skipIf (s : State) (c : Bool) : State := if c then s.advance else s

/-! ### Faults -/

/-- Fault entry: FAULT takes the kind and the information, nothing else changes, and the step ends there
(60_exceptions.md R176, 00_scope.md R10). The result is a next state, the halted one (log 1). There is
no return from a fault but Reset (R178). -/
def raise (kind : FaultKind) (info : Word) (s : State) : Result :=
  .next { s with fault := some ⟨kind, info⟩ }

/-- An access of `n` bytes from `addr` on stays in memory; one of no bytes always does (00_scope.md R9,
20_memory.md R55). -/
def accessOk (addr n : Nat) : Bool := decide (n = 0 ∨ addr + n ≤ 4096)

/-- The information of `AddressOutOfRange`: the lowest address of 4096 or more that the access would touch
(20_memory.md R55). -/
def badAddress (addr : Nat) : Word := BitVec.ofNat 16 (max addr 4096)

/-- Do `act` if the access stays in memory, else raise `AddressOutOfRange` before anything is touched
(20_memory.md R55, 60_exceptions.md R174). -/
def withAccess (addr n : Nat) (act : State → State) (s : State) : Result :=
  if accessOk addr n then .next (act s) else raise .addressOutOfRange (badAddress addr) s

/-! ### Call stack -/

/-- `STACK[SP] <- PC; SP <- SP + 1`, or `StackOverflow` at depth 16 (41_control_flow.md R102). `act` runs
after the push. -/
def withPush (act : State → State) (s : State) : Result :=
  if h : s.sp.val < 16 then
    .next (act { s with stack := s.stack.set s.sp.val s.pc h, sp := ⟨s.sp.val + 1, by omega⟩ })
  else raise .stackOverflow 0 s

/-- `SP <- SP - 1; PC <- STACK[SP]`, or `StackUnderflow` at depth 0 (41_control_flow.md R100). -/
def popPc (s : State) : Result :=
  if h : s.sp.val = 0 then raise .stackUnderflow 0 s
  else .next { s with
    sp := ⟨s.sp.val - 1, by omega⟩
    pc := s.stack[s.sp.val - 1]'(by omega) }

/-! ### Framebuffer -/

/-- A pixel; off the screen there is none set (10_state.md R31). -/
def Framebuffer.pixel (fb : Framebuffer) (row col : Nat) : Bool :=
  if h : row < 32 ∧ col < 64 then (fb[row]'h.1)[col]'h.2 else false

/-- Invert a pixel of the screen (44_draw.md R154). -/
def Framebuffer.flip (fb : Framebuffer) (row col : Nat) : Framebuffer :=
  if h : row < 32 ∧ col < 64 then
    fb.set row ((fb[row]'h.1).set col (!(fb[row]'h.1)[col]'h.2) h.2) h.1
  else fb

/-- The clear framebuffer (44_draw.md R150). -/
def Framebuffer.clear : Framebuffer := Vector.replicate 32 (Vector.replicate 64 false)

/-- The framebuffer and the collision flag while a sprite is drawn (44_draw.md R151). -/
abbrev Drawing := Framebuffer × Bool

/-- One sprite bit at (row, col): clipped off the screen, else a 1 inverts its pixel and collides with a
set one (44_draw.md R151, R153, R154). -/
def drawBit (row col : Nat) (bit : Bool) (d : Drawing) : Drawing :=
  if row ≤ 31 ∧ col ≤ 63 ∧ bit = true then
    (Framebuffer.flip d.1 row col, d.2 || Framebuffer.pixel d.1 row col)
  else d

/-- One sprite row: bit 7 is the leftmost pixel, at column `x0` (44_draw.md R155; log 15). -/
def drawRow (x0 row : Nat) (byte : Byte) (d : Drawing) : Drawing :=
  (List.range 8).foldl (fun d c => drawBit row (x0 + c) (byte.getLsbD (7 - c)) d) d

/-- The sprite's rows from `row` downwards (44_draw.md R151). -/
def drawRows (x0 : Nat) : Nat → List Byte → Drawing → Drawing
  | _, [], d => d
  | row, byte :: rest, d => drawRows x0 (row + 1) rest (drawRow x0 row byte d)

/-! ### Keys -/

/-- Skip by the level of the key that a register names, or raise `KeyOutOfRange` for an index above 15
(45_keypad_timers.md R160, R161). -/
def skipByKey (x : Index) (pressed : Bool) (s : State) : Result :=
  if h : (s.getV x).toNat < 16 then
    .next (s.skipIf (s.keys[(s.getV x).toNat] == pressed))
  else raise .keyOutOfRange ((s.getV x).setWidth 16) s

end Sys2Proof.Machine
end

