-- ==== Sys2Proof/Machine/Operands.lean ====
section
/-! DEFINITION. Every operand form: the registers that a field names, zero extension, and the one
addressing mode (30_encoding.md R73, 43_index_memory.md R147). -/

namespace Sys2Proof.Machine

/-- A byte in a 16-bit register: zero-extended (30_encoding.md R73). -/
def zextByte (b : Byte) : Word := b.setWidth 16

/-- The field nnn as a 16-bit value: zero-extended (30_encoding.md R73). -/
def zextAddr (nnn : Addr12) : Word := nnn.setWidth 16

/-- The start of every data access: the whole of I as an unbounded integer. Byte k of the access is at
this plus k, reduced by no modulus (43_index_memory.md R147). -/
def State.base (s : State) : Nat := s.i.toNat

/-- The registers V0 to Vx in order (43_index_memory.md R144). -/
def State.lowV (s : State) (x : Index) : List Byte := s.v.toList.take (x.val + 1)

/-- The decimal digits of a byte: hundreds, tens, units (43_index_memory.md R143). -/
def decimalDigits (b : Byte) : List Byte :=
  [BitVec.ofNat 8 (b.toNat / 100), BitVec.ofNat 8 (b.toNat / 10 % 10), BitVec.ofNat 8 (b.toNat % 10)]

/-- The column and the row of a sprite's origin: V[x] mod 64 and V[y] mod 32 (44_draw.md R153). -/
def State.origin (s : State) (x y : Index) : Nat × Nat :=
  ((s.getV x).toNat % 64, (s.getV y).toNat % 32)

end Sys2Proof.Machine
end

