-- ==== Sys2Proof/Machine/Flags.lean ====
section
/-! DEFINITION. Every flag computation: the flag and the 8-bit result of the five flag-writing operations,
both from the operands before the instruction (42_load_alu.md R121), and the order of the two writes. -/

namespace Sys2Proof.Machine

/-- A flag as the byte that VF takes: 0 or 1 (10_state.md R21). -/
def flagByte (f : Bool) : Byte := if f then 1 else 0

/-- Sum and carry: the carry is bit 8 of the 9-bit sum (42_load_alu.md R128). -/
def addCarry (p q : Byte) : Bool × Byte := (decide (255 < p.toNat + q.toNat), p + q)

/-- Difference and no-borrow: 1 when p ≥ q, equality included (42_load_alu.md R129, R131). -/
def subNoBorrow (p q : Byte) : Bool × Byte := (decide (q.toNat ≤ p.toNat), p - q)

/-- Right shift by one and the bit shifted out, bit 0 (42_load_alu.md R130). -/
def shiftRight (p : Byte) : Bool × Byte := (p.getLsbD 0, p >>> 1)

/-- Left shift by one and the bit shifted out, bit 7 (42_load_alu.md R132). -/
def shiftLeft (p : Byte) : Bool × Byte := (p.getLsbD 7, p <<< 1)

/-- `V[15] <- flag; V[x] <- result`, in this order, so that with x = 15 the result remains
(42_load_alu.md R121; log 10). -/
def State.setFlagged (s : State) (x : Index) (out : Bool × Byte) : State :=
  (s.setV vf (flagByte out.1)).setV x out.2

end Sys2Proof.Machine
end

