-- ==== Sys2Proof/Machine/Alu.lean ====
section
/-! DEFINITION. Register loads, arithmetic, logic, shifts and random (42_load_alu.md). -/

namespace Sys2Proof.Machine

/-- 6xkk LD_IMM (R122). -/
def execLdImm (x : Index) (kk : Byte) (s : State) : Result := .next (s.setV x kk)

/-- 7xkk ADD_IMM, modulo 256, no flag (R123). -/
def execAddImm (x : Index) (kk : Byte) (s : State) : Result := .next (s.setV x (s.getV x + kk))

/-- 8xy0 LD_REG (R124). -/
def execLdReg (x y : Index) (s : State) : Result := .next (s.setV x (s.getV y))

/-- 8xy1 OR, no flag (R125). -/
def execOrReg (x y : Index) (s : State) : Result := .next (s.setV x (s.getV x ||| s.getV y))

/-- 8xy2 AND, no flag (R126). -/
def execAndReg (x y : Index) (s : State) : Result := .next (s.setV x (s.getV x &&& s.getV y))

/-- 8xy3 XOR, no flag (R127). -/
def execXorReg (x y : Index) (s : State) : Result := .next (s.setV x (s.getV x ^^^ s.getV y))

/-- 8xy4 ADD_REG, VF = carry (R128). -/
def execAddReg (x y : Index) (s : State) : Result :=
  .next (s.setFlagged x (addCarry (s.getV x) (s.getV y)))

/-- 8xy5 SUB, VF = no borrow (R129). -/
def execSub (x y : Index) (s : State) : Result :=
  .next (s.setFlagged x (subNoBorrow (s.getV x) (s.getV y)))

/-- 8xy6 SHR, VF = bit shifted out; y is a don't-care (R130, 30_encoding.md R80). -/
def execShr (x _y : Index) (s : State) : Result := .next (s.setFlagged x (shiftRight (s.getV x)))

/-- 8xy7 SUBN: Vy - Vx into Vx, VF = no borrow (R131). -/
def execSubn (x y : Index) (s : State) : Result :=
  .next (s.setFlagged x (subNoBorrow (s.getV y) (s.getV x)))

/-- 8xyE SHL, VF = bit shifted out; y is a don't-care (R132, 30_encoding.md R80). -/
def execShl (x _y : Index) (s : State) : Result := .next (s.setFlagged x (shiftLeft (s.getV x)))

/-- Cxkk RND: the next free byte and kk (R133; log 5). -/
def execRnd (x : Index) (kk : Byte) (s : State) : Result :=
  .next ({ s with draws := s.draws + 1 }.setV x (Config.drawByte s.draws &&& kk))

end Sys2Proof.Machine
end

