-- ==== Sys2Proof/Machine/Devices.lean ====
section
/-! DEFINITION. The keypad, key wait and timer instructions (45_keypad_timers.md). -/

namespace Sys2Proof.Machine

/-- Ex9E SKP (R160). -/
def execSkp (x : Index) (s : State) : Result := skipByKey x true s

/-- ExA1 SKNP (R161). -/
def execSknp (x : Index) (s : State) : Result := skipByKey x false s

/-- Fx0A LD_VX_K: enter the awaiting-key state; Vx is written when a press is delivered (R163, R164). -/
def execLdVxK (x : Index) (s : State) : Result := .next { s with waitx := x, wait := true }

/-- Fx07 LD_VX_DT (R162). -/
def execLdVxDt (x : Index) (s : State) : Result := .next (s.setV x s.dt)

/-- Fx15 LD_DT_VX (R165). -/
def execLdDtVx (x : Index) (s : State) : Result := .next { s with dt := s.getV x }

/-- Fx18 LD_ST_VX (R166). -/
def execLdStVx (x : Index) (s : State) : Result := .next { s with st := s.getV x }

end Sys2Proof.Machine
end

