-- ==== Sys2Proof/Machine/Draw.lean ====
section
/-! DEFINITION. The framebuffer unit (44_draw.md). -/

namespace Sys2Proof.Machine

/-- 00E0 CLS (R150). -/
def execCls (s : State) : Result := .next { s with fb := Framebuffer.clear }

/-- The sprite of an n-row DRAW: the n bytes from I on (R152). -/
def State.sprite (s : State) (n : Index) : List Byte := Memory.readBytes s.mem s.base n.val

/-- The framebuffer and the collision flag after a DRAW: coordinates, I and the sprite are read before VF
is written (R151, R153, R154; log 16). -/
def State.drawn (s : State) (x y n : Index) : Drawing :=
  drawRows (s.origin x y).1 (s.origin x y).2 (s.sprite n) (s.fb, false)

/-- Dxyn DRAW: XOR the sprite onto the screen, VF = collision (R151, R152). -/
def execDraw (x y n : Index) (s : State) : Result :=
  withAccess s.base n.val
    (fun t => { t with fb := (s.drawn x y n).1 }.setV vf (flagByte (s.drawn x y n).2)) s

end Sys2Proof.Machine
end

