-- ==== Sys2Proof/Machine/Flow.lean ====
section
/-! DEFINITION. NOP, control transfer and the register skips (40_step_cycle.md R95, 41_control_flow.md).
Every meaning runs with PC already past the instruction (40_step_cycle.md R92). -/

namespace Sys2Proof.Machine

/-- 0000 NOP (R95). -/
def execNop (s : State) : Result := .next s

/-- 00EE RET (R100). -/
def execRet (s : State) : Result := popPc s

/-- 1nnn JP (R101). -/
def execJp (nnn : Addr12) (s : State) : Result := .next { s with pc := zextAddr nnn }

/-- 2nnn CALL (R102). -/
def execCall (nnn : Addr12) (s : State) : Result :=
  withPush (fun t => { t with pc := zextAddr nnn }) s

/-- Bnnn JP_V0: V0 plus nnn, modulo 2^16 (R107). -/
def execJpV0 (nnn : Addr12) (s : State) : Result :=
  .next { s with pc := zextByte (s.getV 0) + zextAddr nnn }

/-- 3xkk SE_IMM (R103). -/
def execSeImm (x : Index) (kk : Byte) (s : State) : Result := .next (s.skipIf (s.getV x == kk))

/-- 4xkk SNE_IMM (R104). -/
def execSneImm (x : Index) (kk : Byte) (s : State) : Result := .next (s.skipIf (s.getV x != kk))

/-- 5xy0 SE_REG (R105). -/
def execSeReg (x y : Index) (s : State) : Result := .next (s.skipIf (s.getV x == s.getV y))

/-- 9xy0 SNE_REG (R106). -/
def execSneReg (x y : Index) (s : State) : Result := .next (s.skipIf (s.getV x != s.getV y))

end Sys2Proof.Machine
end

