-- ==== Sys2Proof/Machine/IndexMem.lean ====
section
/-! DEFINITION. The index register and the memory transfers (43_index_memory.md). No instruction here
modifies I as a side effect (R147; log 18). -/

namespace Sys2Proof.Machine

/-- Annn LD_I (R140). -/
def execLdI (nnn : Addr12) (s : State) : Result := .next { s with i := zextAddr nnn }

/-- Fx1E ADD_I: modulo 2^16, no flag (R141; log 14). -/
def execAddI (x : Index) (s : State) : Result := .next { s with i := s.i + zextByte (s.getV x) }

/-- Fx29 LD_F: FONT_BASE plus five times the whole of Vx (R142). -/
def execLdF (x : Index) (s : State) : Result :=
  .next { s with i := BitVec.ofNat 16 (Config.fontBase.val + (s.getV x).toNat * 5) }

/-- Fx33 LD_B: the three decimal digits of Vx at I, I+1, I+2 (R143). -/
def execLdB (x : Index) (s : State) : Result :=
  withAccess s.base 3
    (fun t => { t with mem := Memory.writeBytes t.mem s.base (decimalDigits (s.getV x)) }) s

/-- Fx55 STORE: V0 to Vx at I to I+x (R144). -/
def execStore (x : Index) (s : State) : Result :=
  withAccess s.base (x.val + 1)
    (fun t => { t with mem := Memory.writeBytes t.mem s.base (s.lowV x) }) s

/-- Fx65 LOAD: V0 to Vx from I to I+x (R145). -/
def execLoad (x : Index) (s : State) : Result :=
  withAccess s.base (x.val + 1) (fun t => t.setLowV x fun k => Memory.read s.mem (s.base + k)) s

end Sys2Proof.Machine
end

