-- ==== Sys2Proof/Machine/Transact.lean ====
section
/-! DEFINITION. The transactions of the host interface (60_exceptions.md R183), the frame of the
instruction step among them (40_step_cycle.md R90). -/

namespace Sys2Proof.Machine

/-! ### StepInstruction -/

/-- The two bytes at an address as a big-endian word (20_memory.md R51). -/
def Memory.readWord (m : Memory) (a : Nat) : Word :=
  wordOfBytes (Memory.read m a) (Memory.read m (a + 1))

/-- The opcode at PC, from the current contents of memory (40_step_cycle.md R91, 20_memory.md R62). -/
def State.opcode (s : State) : Word := Memory.readWord s.mem s.pc.toNat

/-- The state when an instruction of a running core begins: the launch is over (log 19). -/
def State.begun (s : State) : State := { s with launching := false }

/-- The state that `execute` starts from: PC is past the instruction (40_step_cycle.md R92). -/
def State.fetched (s : State) : State := s.begun.advance

/-- Execute a word: its instruction, or `InvalidOpcode` with the raw word (40_step_cycle.md R93). -/
def execWord (w : Word) (s : State) : Result :=
  match decodeWord w with
  | .ok i => exec i s
  | .error _ => raise .invalidOpcode w s

/-- Fetch, advance and execute, or the fetch fault with PC left standing (40_step_cycle.md R90 to R93). -/
def cycle (s : State) : Result :=
  if accessOk s.pc.toNat 2 then execWord s.opcode s.fetched
  else raise .addressOutOfRange (badAddress s.pc.toNat) s.begun

/-- `StepInstruction`: a halted core answers its fault again, a core awaiting a key changes nothing, a
running one does a cycle (40_step_cycle.md R90, R96, 60_exceptions.md R177; log 1). -/
def stepInstruction (s : State) : Result :=
  match s.fault with
  | some f => .fault (.halted f)
  | none => if s.wait then .next s else cycle s

/-! ### The other transactions -/

/-- One decrement, floored at 0 (60_exceptions.md R185). -/
def countdown (t : Byte) : Byte := if t = 0 then 0 else t - 1

/-- `StepTimer`, in every mode (60_exceptions.md R185; log 13). -/
def State.stepTimer (s : State) : State := { s with dt := countdown s.dt, st := countdown s.st }

/-- A press event: key k goes from 0 to 1 (60_exceptions.md R187). -/
def State.isPress (s : State) (k : Index) (b : Bool) : Bool := b && !s.keys[k]

/-- `KeySet(k, b)`: the level of the key, and on a press event during a wait the key code to V[WAITX] and
the end of the wait (60_exceptions.md R186, R187, 45_keypad_timers.md R164; log 12, log 21). -/
def State.keySet (s : State) (k : Index) (b : Bool) : State :=
  let t := { s with keys := s.keys.set k.val b k.isLt }
  if s.isPress k b && s.wait && s.fault.isNone then
    { t.setV s.waitx (BitVec.ofNat 8 k.val) with wait := false }
  else t

/-- `LoadProgram(b)`: the image to memory from 0x200 on; an image of more than 3584 bytes and a load in
mid-run are refused with no change of state (60_exceptions.md R191; log 19). -/
def loadProgram (image : List Byte) (s : State) : Result :=
  if imageFits image then
    if s.launching then .next { s with mem := Memory.writeBytes s.mem 0x200 image }
    else .refused .loadInMidRun
  else .refused (.imageTooLong image.length)

/-- `Reset`: every piece of the spec's state at its reset value (70_reset_and_hazards.md R200). The
host's schedule and the count of free bytes are no state of the core and stay (log 22). -/
def State.resetAll (s : State) : State :=
  { State.reset with draws := s.draws, schedule := s.schedule }

/-- The state change of a transaction (60_exceptions.md R183). -/
def transact (t : Transaction) (s : State) : Result :=
  match t with
  | .reset => .next s.resetAll
  | .loadProgram image => loadProgram image s
  | .stepInstruction => stepInstruction s
  | .stepTimer => .next s.stepTimer
  | .keySet k b => .next (s.keySet k b)
  | .readFramebuffer => .next s
  | .readSound => .next s
  | .readStatus => .next s

/-- The launch of a run, Reset and LoadProgram (70_reset_and_hazards.md R202; log 23). -/
def State.boot (image : List Byte) : Result := loadProgram image State.reset

/-! ### What a transaction returns -/

/-- The result of a StepInstruction (40_step_cycle.md R94). -/
inductive StepResult where
  /-- One instruction was executed without fault. -/
  | ok
  /-- Nothing was done: the core awaits a key. -/
  | waiting
  /-- The core is halted, by this step or an earlier one. -/
  | fault (f : FaultRecord)
  deriving DecidableEq, Repr

/-- What the host gets back from a transaction (60_exceptions.md R183). -/
inductive Reply where
  /-- Nothing is returned. -/
  | done
  /-- The result of a StepInstruction (R94). -/
  | result (r : StepResult)
  /-- The whole grid of pixels (R188). -/
  | framebuffer (fb : Framebuffer)
  /-- ST, and the tone request ST > 0 (R189). -/
  | sound (st : Byte) (tone : Bool)
  /-- FAULT, WAIT and WAITX (R190). -/
  | status (fault : Option FaultRecord) (wait : Bool) (waitx : Index)
  /-- The interface refuses the transaction (R191). -/
  | refused (r : Refusal)
  deriving DecidableEq, Repr

/-- The result that StepInstruction returns in a state (40_step_cycle.md R90, R94). -/
def stepResult (s : State) : StepResult :=
  match s.fault with
  | some f => .fault f
  | none =>
    if s.wait then .waiting
    else
      match cycle s with
      | .next t => match t.fault with
        | some f => .fault f
        | none => .ok
      | .fault (.halted f) => .fault f
      | .refused _ => .ok

/-- What a transaction returns when it is issued in a state (60_exceptions.md R183, R188 to R190). -/
def reply (t : Transaction) (s : State) : Reply :=
  match t with
  | .reset => .done
  | .loadProgram image =>
    match loadProgram image s with
    | .next _ => .done
    | .fault _ => .done
    | .refused r => .refused r
  | .stepInstruction => .result (stepResult s)
  | .stepTimer => .done
  | .keySet _ _ => .done
  | .readFramebuffer => .framebuffer s.fb
  | .readSound => .sound s.st (decide (0 < s.st.toNat))
  | .readStatus => .status s.fault s.wait s.waitx

/-- The number of a fault kind (60_exceptions.md R170, 92_eei_decisions.md D7). -/
def FaultKind.code : FaultKind → Nat
  | .invalidOpcode => 1
  | .stackOverflow => 2
  | .stackUnderflow => 3
  | .addressOutOfRange => 4
  | .keyOutOfRange => 5

/-- The kind number of the fault latch, 0 when there is no fault (10_state.md R36, 60_exceptions.md R170). -/
def State.faultCode (s : State) : Nat := (s.fault.map fun f => f.kind.code).getD 0

/-! ### Placing an instruction -/

/-- The address where the next fetch takes place: PC, or 0x200 where nothing can be fetched at PC. -/
def State.fetchHome (s : State) : Word := if accessOk s.pc.toNat 2 then s.pc else 0x200

/-- The state ready to run a given word next: the word at the fetch address, and a core that is running
with no host transaction before the step (log 23). -/
def State.placeWord (s : State) (w : Word) : State :=
  { s with
    pc := s.fetchHome
    mem := Memory.writeBytes s.mem s.fetchHome.toNat [hiByte w, loByte w]
    wait := false
    fault := none
    schedule := [] }

end Sys2Proof.Machine
end

