-- ==== Sys2Proof/Machine/Step.lean ====
section
/-! DEFINITION. One step of the machine: the host's next transaction, or a StepInstruction when the
schedule is empty (60_exceptions.md R183, R193, 70_reset_and_hazards.md R206; log 2). -/

namespace Sys2Proof.Machine

/-- One step. Transactions are atomic and serial (R57, R193); which comes next is the host's choice, held
in `schedule`. -/
def step (s : State) : Host.Outcome State Fault Refusal :=
  match s.schedule with
  | [] => stepInstruction s
  | t :: rest => transact t { s with schedule := rest }

/-- The state whose next step fetches and runs the opcode-table word `w` of `nbits` bits. -/
def State.withFetchWord (s : State) (nbits w : Nat) : State :=
  s.placeWord (BitVec.ofNat 16 (w % 2 ^ nbits))

end Sys2Proof.Machine
end

