-- ==== Sys2Proof/Safety.lean ====
section
/-! DEFINITION. What counts as a safe run, and the terms in which claims speak of states and of steps. -/

namespace Sys2Proof.Machine

/-! ### Modes -/

/-- The states of the sequencer (10_state.md R40). They are no privilege modes (60_exceptions.md R181). -/
inductive Mode where
  | halted
  | awaitingKey
  | running
  deriving DecidableEq, Repr

/-- The mode of a state (10_state.md R40). -/
def State.mode (s : State) : Mode :=
  if s.fault.isSome then .halted else if s.wait then .awaitingKey else .running

/-- A running core whose next step is an instruction that can be fetched at PC: no fault, no wait, no
host transaction first, and both bytes in memory (40_step_cycle.md R90, R91). -/
structure State.Ready (s : State) : Prop where
  schedule : s.schedule = []
  fault : s.fault = none
  wait : s.wait = false
  fetch : s.pc.toNat + 2 ≤ 4096

/-! ### The invariant of the state -/

/-- What holds in every state reachable from reset (10_state.md R41): memory is in canonical form, PC is at
most 0x10FE, every live stack entry is the address after some fetch address, and a halted core awaits no
key. That SP is at most 16 and every byte fits its register is in the types. -/
structure Inv (s : State) : Prop where
  memory : Memory.wf s.mem = true
  pc : s.pc.toNat ≤ 0x10FE
  returns : ∀ k : Fin 16, k.val < s.sp.val → 2 ≤ s.stack[k].toNat ∧ s.stack[k].toNat ≤ 0x1000
  modes : s.fault ≠ none → s.wait = false

/-! ### Runs -/

/-- The states that the host's transactions reach from reset, in any order (60_exceptions.md R183, R193). -/
inductive Reachable : State → Prop where
  | reset : Reachable State.reset
  | transact {s s' : State} (t : Transaction) : Reachable s → transact t s = .next s' → Reachable s'

/-- The fixed point of R208 (c), the recommended end of a run (70_reset_and_hazards.md R208,
92_eei_decisions.md D20): the word at PC is a jump to PC. The first three fields are what R208's 'each step
returns Ok' takes. Nothing is asked of the host's pending transactions (log 29). -/
structure SelfJump (s : State) : Prop where
  fault : s.fault = none
  wait : s.wait = false
  fetch : s.pc.toNat + 2 ≤ 4096
  jump : ∃ nnn : Addr12, s.opcode = wordNNN 0x1 nnn ∧ s.pc.toNat = nnn.toNat

/-- `k` steps lead from s to t, none of them stopped: what `Host.Core.run` answers (`runsTo_iff_run`). -/
def RunsTo : Nat → State → State → Prop
  | 0, s, t => t = s
  | k + 1, s, t => ∃ u, step s = .next u ∧ RunsTo k u t

/-- A run of `k` steps that meets no fault and no refusal: no state of it is halted, its first and its last
included, and every step answers a next state. A taken fault is a next state (log 1), so that the latch
says it: a halted state is never a successful end of a run (60_exceptions.md R177). -/
def SafeRun : Nat → State → Prop
  | 0, s => s.fault = none
  | k + 1, s => s.fault = none ∧ ∃ t, step s = .next t ∧ SafeRun k t

/-- Normal completion: a safe run of `k` steps whose last state meets `done`, the terminal predicate, which is
a parameter of the claim (70_reset_and_hazards.md R208); the recommended one is `SelfJump`. -/
def Completes (done : State → Prop) (k : Nat) (s : State) : Prop :=
  SafeRun k s ∧ ∃ t, RunsTo k s t ∧ done t

/-! ### Frames -/

/-- Every general register but x is as before. -/
def OtherVSame (s t : State) (x : Index) : Prop := ∀ r : Index, r ≠ x → t.v[r] = s.v[r]

/-- Every general register but x and VF is as before. -/
def OtherVSameButVF (s t : State) (x : Index) : Prop := ∀ r : Index, r ≠ x → r ≠ 15 → t.v[r] = s.v[r]

/-- Every byte of memory outside the `n` bytes from `a` on reads as before. -/
def MemSameOutside (s t : State) (a n : Nat) : Prop :=
  ∀ c, c < a ∨ a + n ≤ c → Memory.read t.mem c = Memory.read s.mem c

/-- The sprite bit that a DRAW lands on the pixel at (row, col): the pixel is in the n rows from V[y] mod 32
and the 8 columns from V[x] mod 64, and the bit is that of byte I + (row - Y0), bit 7 leftmost (44_draw.md
R152, R153, R155). -/
def State.spriteBitAt (s : State) (x y n : Index) (row col : Nat) : Bool :=
  let x0 := s.v[x].toNat % 64
  let y0 := s.v[y].toNat % 32
  decide (y0 ≤ row ∧ row < y0 + n.val ∧ x0 ≤ col ∧ col < x0 + 8) &&
    (Memory.read s.mem (s.i.toNat + (row - y0))).getLsbD (7 - (col - x0))

/-! ### What an instruction may write

Each of these is true of the instructions that the tables of 10_state.md (R20, R24, R37), R31 and R56 name as
writers of a piece of state; a claim says that every other instruction leaves it alone. -/

/-- May leave PC elsewhere than past itself (10_state.md R24). -/
def writesPc : Instr → Bool
  | .ret | .jp _ | .call _ | .jpV0 _ => true
  | .seImm _ _ | .sneImm _ _ | .seReg _ _ | .sneReg _ _ | .skp _ | .sknp _ => true
  | _ => false

/-- May write SP or the stack (10_state.md R25, R26). -/
def writesStack : Instr → Bool
  | .ret | .call _ => true
  | _ => false

/-- May write I (10_state.md R22). -/
def writesI : Instr → Bool
  | .ldI _ | .addI _ | .ldF _ => true
  | _ => false

/-- May write memory (20_memory.md R56). -/
def writesMem : Instr → Bool
  | .ldB _ | .store _ => true
  | _ => false

/-- May write the framebuffer (10_state.md R31). -/
def writesFb : Instr → Bool
  | .cls | .draw _ _ _ => true
  | _ => false

/-- May take a fault in execution (60_exceptions.md R179). -/
def mayFault : Instr → Bool
  | .ret | .call _ | .draw _ _ _ | .skp _ | .sknp _ | .ldB _ | .store _ | .load _ => true
  | _ => false

/-- May write the general register r: its destination, VF as a flag, or one of V0 to Vx (10_state.md R20, R21). -/
def writesV (i : Instr) (r : Index) : Bool :=
  match i with
  | .ldImm x _ | .addImm x _ | .ldReg x _ | .orReg x _ | .andReg x _ | .xorReg x _ => decide (r = x)
  | .rnd x _ | .ldVxDt x => decide (r = x)
  | .addReg x _ | .sub x _ | .shr x _ | .subn x _ | .shl x _ => decide (r = x ∨ r = 15)
  | .draw _ _ _ => decide (r = 15)
  | .load x => decide (r ≤ x)
  | _ => false

/-- Every piece of the spec's state at its reset value (10_state.md R39). -/
structure AtReset (s : State) : Prop where
  pc : s.pc = 0x200
  fb : ∀ row col, Framebuffer.pixel s.fb row col = false
  v : ∀ x : Index, s.v[x] = 0
  i : s.i = 0
  sp : s.sp = 0
  stack : ∀ k : Fin 16, s.stack[k] = 0
  dt : s.dt = 0
  st : s.st = 0
  keys : ∀ k : Index, s.keys[k] = false
  font : ∀ k : Fin 80, Memory.read s.mem (Config.fontBase.val + k.val) = Config.fontData k
  mem : ∀ a, a < Config.fontBase.val ∨ Config.fontBase.val + 80 ≤ a → Memory.read s.mem a = 0
  wait : s.wait = false
  waitx : s.waitx = 0
  fault : s.fault = none

end Sys2Proof.Machine
end

