-- ==== Sys2Proof/Certificates/Slice0/Obligations.lean ====
section
/-! DEFINITION. The statements for the provers: the spec's rules, said of this model. Words are written out
as numbers, so that a statement about an instruction also says which word it is. -/

open Sys2Proof Sys2Proof.Machine

/-! ### Encoding -/

/-- 30_encoding.md R70 to R78: decoding the bytes of any well-formed instruction gives it back, with every
operand, and the bytes after it. -/
def Obligations.DecodeOfEncode : Prop :=
  ∀ (i : Instr) (rest : List Byte), i.wellFormed = true →
    decodeBytes (encodeBytes i ++ rest) = .ok (i, rest)

/-- 30_encoding.md R80, R81: the decoder drops no bit; the one word of a decoded instruction is the word it
was decoded from. -/
def Obligations.EncodeOfDecode : Prop :=
  ∀ (w : Word) (i : Instr), decodeWord w = .ok i → encode i = w

/-- 30_encoding.md R79, R81, 40_step_cycle.md R93: a word decodes to an instruction exactly when it selects a row
of the opcode table, it selects that instruction's row and no other, and any other word is rejected with the
word itself. -/
def Obligations.DecodeSelectsTheOneRow : Prop :=
  ∀ w : Word,
    (∀ i, decodeWord w = .ok i →
      i.row ∈ opcodeTable ∧ ∀ r ∈ opcodeTable, (r.selects w = true ↔ r = i.row)) ∧
    (∀ e, decodeWord w = .error e →
      e = .invalidOpcode w ∧ ∀ r ∈ opcodeTable, r.selects w = false)

/-- 95_test_vectors.md section 2.1: words written out from the encoding tables decode to the instructions they
stand for, and invalid words are rejected. -/
def Obligations.DecodesSpecWords : Prop :=
  decodeWord 0x0000 = .ok .nop ∧ decodeWord 0x00E0 = .ok .cls ∧ decodeWord 0x00EE = .ok .ret ∧
  decodeWord 0x1ABC = .ok (.jp 0xABC) ∧ decodeWord 0x3A42 = .ok (.seImm 10 0x42) ∧
  decodeWord 0x5340 = .ok (.seReg 3 4) ∧ decodeWord 0x6FAB = .ok (.ldImm 15 0xAB) ∧
  decodeWord 0x8127 = .ok (.subn 1 2) ∧ decodeWord 0x812E = .ok (.shl 1 2) ∧
  decodeWord 0xD125 = .ok (.draw 1 2 5) ∧ decodeWord 0xE1A1 = .ok (.sknp 1) ∧
  decodeWord 0xF265 = .ok (.load 2) ∧ decodeWord 0x0001 = .error (.invalidOpcode 0x0001) ∧
  decodeWord 0x5341 = .error (.invalidOpcode 0x5341) ∧
  decodeWord 0x8128 = .error (.invalidOpcode 0x8128) ∧
  decodeWord 0xFFFF = .error (.invalidOpcode 0xFFFF)

/-! ### The step -/

/-- 40_step_cycle.md R90 to R93, 20_memory.md R51: when the big-endian word at PC decodes to i, a step of a
running core is exec of i with PC already past the word; the launch is over (log 19). The same holds when the
host's next transaction is StepInstruction (log 2). -/
def Obligations.StepRunsDecodedInstruction : Prop :=
  ∀ (s : State) (i : Instr), s.fault = none → s.wait = false → s.pc.toNat + 2 ≤ 4096 →
    decodeWord (BitVec.ofNat 16 ((Memory.read s.mem s.pc.toNat).toNat * 256 +
      (Memory.read s.mem (s.pc.toNat + 1)).toNat)) = .ok i →
    (s.schedule = [] → step s = exec i { s with pc := s.pc + 2, launching := false }) ∧
    (∀ rest, s.schedule = .stepInstruction :: rest →
      step s = exec i { s with pc := s.pc + 2, launching := false, schedule := rest })

/-- 60_exceptions.md R171, 30_encoding.md R79: a fetched word that selects no row of the opcode table raises
InvalidOpcode with the raw word; PC is past it and no other state of the core changes. That the fault is a
next state with the latch set is log 1, that it is precise with PC = a + 2 is log 11 (decision D9), and the
launch mark that the step clears is the model's own (log 19). -/
def Obligations.InvalidOpcodeHalts : Prop :=
  ∀ (s : State) (op : Word), s.Ready →
    op.toNat = (Memory.read s.mem s.pc.toNat).toNat * 256 +
      (Memory.read s.mem (s.pc.toNat + 1)).toNat →
    (∀ r ∈ opcodeTable, r.selects op = false) →
    step s = .next { s with
      pc := s.pc + 2, launching := false, fault := some ⟨.invalidOpcode, op⟩ }

/-- 40_step_cycle.md R91 with the spec's decision D5: a fetch that would touch an address of 4096 or more raises
AddressOutOfRange with the lowest such address, PC is left standing and nothing else changes. -/
def Obligations.FetchOutOfRangeHalts : Prop :=
  ∀ s : State, s.schedule = [] → s.fault = none → s.wait = false → 4096 < s.pc.toNat + 2 →
    step s = .next { s with
      launching := false
      fault := some ⟨.addressOutOfRange, BitVec.ofNat 16 (max s.pc.toNat 4096)⟩ }

/-- 40_step_cycle.md R96: an awaiting core changes nothing at a StepInstruction and returns Waiting; only the
press of a key that was up (60_exceptions.md R187, decision D10, log 12) or Reset ends the wait. -/
def Obligations.AwaitingCoreWaits : Prop :=
  ∀ s : State, s.fault = none → s.wait = true →
    transact .stepInstruction s = .next s ∧ stepResult s = .waiting ∧
    ∀ t u, transact t s = .next u → u.wait = false →
      t = .reset ∨ ∃ k, t = .keySet k true ∧ s.keys[k] = false

/-- 60_exceptions.md R177, R178: a halted core answers the same fault at every StepInstruction (the model's
outcome `fault`, log 1), KeySet writes the keypad only, the timers still count down, and no transaction but
Reset clears the fault; Reset does. -/
def Obligations.HaltedCoreIsSticky : Prop :=
  ∀ (s : State) (f : FaultRecord), s.fault = some f →
    transact .stepInstruction s = .fault (.halted f) ∧ stepResult s = .fault f ∧
    (∀ (k : Index) (b : Bool), ∃ u, transact (.keySet k b) s = .next u ∧
      u = { s with keys := u.keys } ∧ ∀ j : Index, u.keys[j] = if j = k then b else s.keys[j]) ∧
    (∃ u, transact .stepTimer s = .next u ∧ u = { s with dt := u.dt, st := u.st } ∧
      u.dt.toNat = s.dt.toNat - 1 ∧ u.st.toNat = s.st.toNat - 1) ∧
    (∀ t u, transact t s = .next u → t ≠ .reset → u.fault = some f) ∧
    (∃ u, transact .reset s = .next u ∧ u.fault = none)

/-! ### The other transactions -/

/-- 10_state.md R39, 70_reset_and_hazards.md R200 with the spec's decisions D2 to D4 and D25: the state after
reset has every value the spec gives, and Reset gives those values whatever the state was before. -/
def Obligations.ResetLeavesResetValues : Prop :=
  AtReset State.reset ∧ ∀ s : State, ∃ t, transact .reset s = .next t ∧ AtReset t

/-- 60_exceptions.md R191 with the spec's decision D19: in the launch, LoadProgram copies an image of at most
3584 bytes to 0x200 and changes nothing else; a longer one, and one after the launch, is refused (log 19). -/
def Obligations.LoadProgramCopiesImage : Prop :=
  ∀ (s : State) (image : List Byte), Memory.wf s.mem = true →
    (s.launching = true → image.length ≤ 3584 →
      ∃ t, transact (.loadProgram image) s = .next t ∧ t = { s with mem := t.mem } ∧
        Memory.wf t.mem = true ∧
        (∀ (k : Nat) (h : k < image.length), Memory.read t.mem (0x200 + k) = image[k]) ∧
        MemSameOutside s t 0x200 image.length) ∧
    (3584 < image.length →
      transact (.loadProgram image) s = .refused (.imageTooLong image.length)) ∧
    (image.length ≤ 3584 → s.launching = false →
      transact (.loadProgram image) s = .refused .loadInMidRun)

/-- 60_exceptions.md R188, R189, R190: the three reads change nothing and return the pixels; ST and whether
it is above 0; FAULT, WAIT and WAITX. -/
def Obligations.ReadsObserveState : Prop :=
  ∀ s : State,
    (transact .readFramebuffer s = .next s ∧ reply .readFramebuffer s = .framebuffer s.fb) ∧
    (transact .readSound s = .next s ∧
      ∃ tone, reply .readSound s = .sound s.st tone ∧ (tone = true ↔ 0 < s.st.toNat)) ∧
    (transact .readStatus s = .next s ∧ reply .readStatus s = .status s.fault s.wait s.waitx)

/-- 60_exceptions.md R185 with the spec's decision D11: in every mode StepTimer decrements each timer by 1,
floored at 0, and changes nothing else. -/
def Obligations.TimerTickFloorsAtZero : Prop :=
  ∀ s : State, ∃ t, transact .stepTimer s = .next t ∧ t = { s with dt := t.dt, st := t.st } ∧
    t.dt.toNat = s.dt.toNat - 1 ∧ t.st.toNat = s.st.toNat - 1

/-- 60_exceptions.md R186, R187, 45_keypad_timers.md R164 with the spec's decisions D10 and D24: KeySet writes
the key's level; on a 0-to-1 transition during a wait it also writes the key code to V[WAITX] and ends the
wait; otherwise it changes nothing else. -/
def Obligations.KeySetWritesKeyAndEndsWait : Prop :=
  ∀ (s : State) (k : Index) (b : Bool), ∃ t, transact (.keySet k b) s = .next t ∧
    (∀ j : Index, t.keys[j] = if j = k then b else s.keys[j]) ∧
    if b = true ∧ s.keys[k] = false ∧ s.wait = true ∧ s.fault = none then
      t = { s with keys := t.keys, v := t.v, wait := false } ∧
      t.v[s.waitx].toNat = k.val ∧ OtherVSame s t s.waitx
    else t = { s with keys := t.keys }

/-! ### Control flow -/

/-- 40_step_cycle.md R95: NOP is the word 0 and changes nothing; a step of a core that fetches it only moves PC
past it (and ends the launch, log 19). -/
def Obligations.NopOnlyAdvances : Prop :=
  (∀ s : State, exec .nop s = .next s) ∧ decodeWord 0 = .ok .nop ∧
  ∀ s : State, s.Ready → Memory.read s.mem s.pc.toNat = 0 → Memory.read s.mem (s.pc.toNat + 1) = 0 →
    step s = .next { s with pc := s.pc + 2, launching := false }

/-- 41_control_flow.md R101, 70_reset_and_hazards.md R208: JP leaves PC at nnn and changes nothing else; a
StepInstruction of a jump to its own address returns Ok and leaves the state as it was (up to the model's own
launch mark, log 19); with no host transaction first, that is the step (log 2). -/
def Obligations.JumpGoesToTarget : Prop :=
  (∀ nnn : Addr12, decodeWord (BitVec.ofNat 16 (0x1000 + nnn.toNat)) = .ok (.jp nnn)) ∧
  (∀ (nnn : Addr12) (s : State), ∃ t, exec (.jp nnn) s = .next t ∧ t = { s with pc := t.pc } ∧
    t.pc.toNat = nnn.toNat) ∧
  ∀ s : State, SelfJump s → stepResult s = .ok ∧
    transact .stepInstruction s = .next { s with launching := false } ∧
    (s.schedule = [] → step s = .next { s with launching := false })

/-- 41_control_flow.md R107: JP_V0 leaves PC at V0 + nnn and changes nothing else; that the sum is never reduced
to 12 bits is log 14 (decision D12). -/
def Obligations.JumpV0AddsOffset : Prop :=
  (∀ nnn : Addr12, decodeWord (BitVec.ofNat 16 (0xB000 + nnn.toNat)) = .ok (.jpV0 nnn)) ∧
  ∀ (nnn : Addr12) (s : State), ∃ t, exec (.jpV0 nnn) s = .next t ∧ t = { s with pc := t.pc } ∧
    t.pc.toNat = s.v[(0 : Index)].toNat + nnn.toNat ∧ t.pc.toNat ≤ 0x10FE

/-- 41_control_flow.md R102: below depth 16 CALL pushes PC, increments SP and jumps, and changes nothing else;
at depth 16 it raises StackOverflow, with the stack, SP and PC unchanged. The slot that a push writes is
log 20 (decision D23); the precise fault is log 11 (D9) and its form, a next state, log 1. -/
def Obligations.CallPushesReturnAddress : Prop :=
  (∀ nnn : Addr12, decodeWord (BitVec.ofNat 16 (0x2000 + nnn.toNat)) = .ok (.call nnn)) ∧
  ∀ (nnn : Addr12) (s : State),
    (∀ top : Fin 16, s.sp.val = top.val →
      ∃ t, exec (.call nnn) s = .next t ∧
        t = { s with pc := t.pc, sp := t.sp, stack := t.stack } ∧ t.pc.toNat = nnn.toNat ∧
        t.sp.val = s.sp.val + 1 ∧ t.stack[top] = s.pc ∧
        ∀ k : Fin 16, k ≠ top → t.stack[k] = s.stack[k]) ∧
    (s.sp.val = 16 → exec (.call nnn) s = .next { s with fault := some ⟨.stackOverflow, 0⟩ })

/-- 41_control_flow.md R100: above depth 0 RET decrements SP and leaves PC at the entry there, and changes
nothing else; at depth 0 it raises StackUnderflow. The slot read and the popped entry that stays are log 20
(decision D23); the precise fault is log 11 (D9) and its form, a next state, log 1. -/
def Obligations.ReturnPopsAddress : Prop :=
  decodeWord 0x00EE = .ok .ret ∧
  ∀ s : State,
    (∀ top : Fin 16, s.sp.val = top.val + 1 →
      ∃ t, exec .ret s = .next t ∧ t = { s with pc := t.pc, sp := t.sp } ∧
        t.pc = s.stack[top] ∧ t.sp.val = top.val) ∧
    (s.sp.val = 0 → exec .ret s = .next { s with fault := some ⟨.stackUnderflow, 0⟩ })

/-- 41_control_flow.md R109: a RET in any later state with the stack as CALL left it, up to its depth, comes
back to the instruction after the CALL, and to the depth before it. -/
def Obligations.CallThenReturnComesBack : Prop :=
  ∀ (nnn : Addr12) (s : State), s.sp.val < 16 →
    ∃ t, exec (.call nnn) s = .next t ∧
      ∀ u : State, u.sp = t.sp → (∀ k : Fin 16, k.val < t.sp.val → u.stack[k] = t.stack[k]) →
        ∃ w, exec .ret u = .next w ∧ w.pc = s.pc ∧ w.sp = s.sp

/-- 41_control_flow.md R103, R104, R108: SE_IMM skips exactly when Vx = kk and SNE_IMM exactly when not, and
nothing but PC changes. -/
def Obligations.ImmediateSkips : Prop :=
  ∀ (x : Index) (kk : Byte),
    (decodeWord (BitVec.ofNat 16 (0x3000 + x.val * 256 + kk.toNat)) = .ok (.seImm x kk) ∧
      ∀ s : State, ∃ t, exec (.seImm x kk) s = .next t ∧ t = { s with pc := t.pc } ∧
        t.pc.toNat = (s.pc.toNat + if s.v[x].toNat = kk.toNat then 2 else 0) % 65536) ∧
    (decodeWord (BitVec.ofNat 16 (0x4000 + x.val * 256 + kk.toNat)) = .ok (.sneImm x kk) ∧
      ∀ s : State, ∃ t, exec (.sneImm x kk) s = .next t ∧ t = { s with pc := t.pc } ∧
        t.pc.toNat = (s.pc.toNat + if s.v[x].toNat = kk.toNat then 0 else 2) % 65536)

/-- 41_control_flow.md R105, R106, R108: SE_REG skips exactly when Vx = Vy and SNE_REG exactly when not, and
nothing but PC changes; with a last digit other than 0 the words are invalid. -/
def Obligations.RegisterSkips : Prop :=
  (∀ (x y : Index) (n : Nibble), n ≠ 0 →
    (∀ i, decodeWord (BitVec.ofNat 16 (0x5000 + x.val * 256 + y.val * 16 + n.toNat)) ≠ .ok i) ∧
    (∀ i, decodeWord (BitVec.ofNat 16 (0x9000 + x.val * 256 + y.val * 16 + n.toNat)) ≠ .ok i)) ∧
  ∀ x y : Index,
    (decodeWord (BitVec.ofNat 16 (0x5000 + x.val * 256 + y.val * 16)) = .ok (.seReg x y) ∧
      ∀ s : State, ∃ t, exec (.seReg x y) s = .next t ∧ t = { s with pc := t.pc } ∧
        t.pc.toNat = (s.pc.toNat + if s.v[x].toNat = s.v[y].toNat then 2 else 0) % 65536) ∧
    (decodeWord (BitVec.ofNat 16 (0x9000 + x.val * 256 + y.val * 16)) = .ok (.sneReg x y) ∧
      ∀ s : State, ∃ t, exec (.sneReg x y) s = .next t ∧ t = { s with pc := t.pc } ∧
        t.pc.toNat = (s.pc.toNat + if s.v[x].toNat = s.v[y].toNat then 0 else 2) % 65536)

/-! ### Registers -/

/-- 42_load_alu.md R122, R123: LD_IMM leaves Vx = kk; ADD_IMM leaves Vx + kk modulo 256 and no flag; every
other register and all else is unchanged. -/
def Obligations.ImmediateLoadsAndAdds : Prop :=
  ∀ (x : Index) (kk : Byte),
    (decodeWord (BitVec.ofNat 16 (0x6000 + x.val * 256 + kk.toNat)) = .ok (.ldImm x kk) ∧
      ∀ s : State, ∃ t, exec (.ldImm x kk) s = .next t ∧ t = { s with v := t.v } ∧
        OtherVSame s t x ∧ t.v[x] = kk) ∧
    (decodeWord (BitVec.ofNat 16 (0x7000 + x.val * 256 + kk.toNat)) = .ok (.addImm x kk) ∧
      ∀ s : State, ∃ t, exec (.addImm x kk) s = .next t ∧ t = { s with v := t.v } ∧
        OtherVSame s t x ∧ t.v[x].toNat = (s.v[x].toNat + kk.toNat) % 256)

/-- 42_load_alu.md R124 to R127: LD_REG copies Vy; OR, AND and XOR combine Vx and Vy bit by bit; no flag is
written: every register but Vx and all else is unchanged. -/
def Obligations.RegisterLogicKeepsFlag : Prop :=
  ∀ x y : Index,
    (decodeWord (BitVec.ofNat 16 (0x8000 + x.val * 256 + y.val * 16)) = .ok (.ldReg x y) ∧
      ∀ s : State, ∃ t, exec (.ldReg x y) s = .next t ∧ t = { s with v := t.v } ∧
        OtherVSame s t x ∧ t.v[x] = s.v[y]) ∧
    (decodeWord (BitVec.ofNat 16 (0x8001 + x.val * 256 + y.val * 16)) = .ok (.orReg x y) ∧
      ∀ s : State, ∃ t, exec (.orReg x y) s = .next t ∧ t = { s with v := t.v } ∧
        OtherVSame s t x ∧
        ∀ b < 8, t.v[x].getLsbD b = (s.v[x].getLsbD b || s.v[y].getLsbD b)) ∧
    (decodeWord (BitVec.ofNat 16 (0x8002 + x.val * 256 + y.val * 16)) = .ok (.andReg x y) ∧
      ∀ s : State, ∃ t, exec (.andReg x y) s = .next t ∧ t = { s with v := t.v } ∧
        OtherVSame s t x ∧
        ∀ b < 8, t.v[x].getLsbD b = (s.v[x].getLsbD b && s.v[y].getLsbD b)) ∧
    (decodeWord (BitVec.ofNat 16 (0x8003 + x.val * 256 + y.val * 16)) = .ok (.xorReg x y) ∧
      ∀ s : State, ∃ t, exec (.xorReg x y) s = .next t ∧ t = { s with v := t.v } ∧
        OtherVSame s t x ∧
        ∀ b < 8, t.v[x].getLsbD b = (s.v[x].getLsbD b != s.v[y].getLsbD b))

/-- 42_load_alu.md R128: ADD_REG leaves the sum modulo 256 in Vx and the carry in VF, both from the operands
before; with x = 15 the sum remains. Nothing else changes.
Where x or y is 15 it rests on log 10 (decision D8): operands are read first, and the result is written last. -/
def Obligations.AddRegisterSetsCarry : Prop :=
  ∀ x y : Index,
    decodeWord (BitVec.ofNat 16 (0x8004 + x.val * 256 + y.val * 16)) = .ok (.addReg x y) ∧
    ∀ s : State, ∃ t, exec (.addReg x y) s = .next t ∧ t = { s with v := t.v } ∧
      OtherVSameButVF s t x ∧
      t.v[x].toNat = (s.v[x].toNat + s.v[y].toNat) % 256 ∧
      (x ≠ 15 → t.v[(15 : Index)].toNat = if s.v[x].toNat + s.v[y].toNat > 255 then 1 else 0)

/-- 42_load_alu.md R129, R131: SUB leaves Vx - Vy and SUBN Vy - Vx modulo 256 in Vx, and 1 in VF exactly when
nothing is borrowed, equality included; with x = 15 the difference remains. Nothing else changes.
Where x or y is 15 it rests on log 10 (decision D8): operands are read first, and the result is written last. -/
def Obligations.SubtractSetsNoBorrow : Prop :=
  ∀ x y : Index,
    (decodeWord (BitVec.ofNat 16 (0x8005 + x.val * 256 + y.val * 16)) = .ok (.sub x y) ∧
      ∀ s : State, ∃ t, exec (.sub x y) s = .next t ∧ t = { s with v := t.v } ∧
        OtherVSameButVF s t x ∧
        t.v[x].toNat = (s.v[x].toNat + 256 - s.v[y].toNat) % 256 ∧
        (x ≠ 15 → t.v[(15 : Index)].toNat = if s.v[x].toNat ≥ s.v[y].toNat then 1 else 0)) ∧
    (decodeWord (BitVec.ofNat 16 (0x8007 + x.val * 256 + y.val * 16)) = .ok (.subn x y) ∧
      ∀ s : State, ∃ t, exec (.subn x y) s = .next t ∧ t = { s with v := t.v } ∧
        OtherVSameButVF s t x ∧
        t.v[x].toNat = (s.v[y].toNat + 256 - s.v[x].toNat) % 256 ∧
        (x ≠ 15 → t.v[(15 : Index)].toNat = if s.v[y].toNat ≥ s.v[x].toNat then 1 else 0))

/-- 42_load_alu.md R130, R132, 30_encoding.md R80: SHR halves Vx and SHL doubles it modulo 256, the bit shifted
out goes to VF, and y has no effect; with x = 15 the result remains. Nothing else changes.
Where x is 15 it rests on log 10 (decision D8): the result is written last. -/
def Obligations.ShiftsMoveBitToFlag : Prop :=
  ∀ x y : Index,
    (decodeWord (BitVec.ofNat 16 (0x8006 + x.val * 256 + y.val * 16)) = .ok (.shr x y) ∧
      ∀ s : State, ∃ t, exec (.shr x y) s = .next t ∧ t = { s with v := t.v } ∧
        OtherVSameButVF s t x ∧ t.v[x].toNat = s.v[x].toNat / 2 ∧
        (x ≠ 15 → t.v[(15 : Index)].toNat = s.v[x].toNat % 2)) ∧
    (decodeWord (BitVec.ofNat 16 (0x800E + x.val * 256 + y.val * 16)) = .ok (.shl x y) ∧
      ∀ s : State, ∃ t, exec (.shl x y) s = .next t ∧ t = { s with v := t.v } ∧
        OtherVSameButVF s t x ∧ t.v[x].toNat = s.v[x].toNat * 2 % 256 ∧
        (x ≠ 15 → t.v[(15 : Index)].toNat = s.v[x].toNat / 128))

/-- 42_load_alu.md R133 with the spec's decision D17: RND leaves the next free byte and kk in Vx, so every bit
that is 0 in kk is 0 in Vx, and takes the byte; nothing else changes. The free byte is `Config.drawByte`
of the model's own counter (log 5), of which nothing is known: the statement holds for every value of it. -/
def Obligations.RandomByteIsMasked : Prop :=
  ∀ (x : Index) (kk : Byte),
    decodeWord (BitVec.ofNat 16 (0xC000 + x.val * 256 + kk.toNat)) = .ok (.rnd x kk) ∧
    ∀ s : State, ∃ t, exec (.rnd x kk) s = .next t ∧
      t = { s with v := t.v, draws := s.draws + 1 } ∧ OtherVSame s t x ∧
      ∀ b < 8, t.v[x].getLsbD b = ((Config.drawByte s.draws).getLsbD b && kk.getLsbD b)

/-! ### Index register and memory -/

/-- 43_index_memory.md R140, R142: LD_I leaves I = nnn; LD_F leaves I = FONT_BASE + 5 * Vx, and nothing else
changes. That LD_F takes the whole of Vx, not its low digit, is log 18 (decision D16); FONT_BASE is open, and
the statement holds for every value of it (log 3). -/
def Obligations.IndexLoads : Prop :=
  (∀ nnn : Addr12, decodeWord (BitVec.ofNat 16 (0xA000 + nnn.toNat)) = .ok (.ldI nnn) ∧
    ∀ s : State, ∃ t, exec (.ldI nnn) s = .next t ∧ t = { s with i := t.i } ∧
      t.i.toNat = nnn.toNat) ∧
  (∀ x : Index, decodeWord (BitVec.ofNat 16 (0xF029 + x.val * 256)) = .ok (.ldF x) ∧
    ∀ s : State, ∃ t, exec (.ldF x) s = .next t ∧ t = { s with i := t.i } ∧
      t.i.toNat = Config.fontBase.val + s.v[x].toNat * 5)

/-- 43_index_memory.md R141 with the spec's decision D12: ADD_I leaves I + Vx modulo 2^16, never reduced to 12
bits, and no flag; nothing else changes. -/
def Obligations.AddIndexWrapsAt16Bits : Prop :=
  ∀ x : Index, decodeWord (BitVec.ofNat 16 (0xF01E + x.val * 256)) = .ok (.addI x) ∧
    ∀ s : State, ∃ t, exec (.addI x) s = .next t ∧ t = { s with i := t.i } ∧
      t.i.toNat = (s.i.toNat + s.v[x].toNat) % 65536

/-- 43_index_memory.md R143: LD_B stores the hundreds, tens and units of Vx at I, I+1 and I+2 and changes
nothing else. -/
def Obligations.DecimalDigitsStored : Prop :=
  ∀ x : Index, decodeWord (BitVec.ofNat 16 (0xF033 + x.val * 256)) = .ok (.ldB x) ∧
    ∀ s : State, Memory.wf s.mem = true → s.base + 3 ≤ 4096 →
      ∃ t, exec (.ldB x) s = .next t ∧ t = { s with mem := t.mem } ∧ Memory.wf t.mem = true ∧
        (Memory.read t.mem s.base).toNat = s.v[x].toNat / 100 ∧
        (Memory.read t.mem (s.base + 1)).toNat = s.v[x].toNat / 10 % 10 ∧
        (Memory.read t.mem (s.base + 2)).toNat = s.v[x].toNat % 10 ∧
        MemSameOutside s t s.base 3

/-- 43_index_memory.md R144: STORE puts V0 to Vx at I to I+x and changes nothing else. -/
def Obligations.RegistersStored : Prop :=
  ∀ x : Index, decodeWord (BitVec.ofNat 16 (0xF055 + x.val * 256)) = .ok (.store x) ∧
    ∀ s : State, Memory.wf s.mem = true → s.base + x.val + 1 ≤ 4096 →
      ∃ t, exec (.store x) s = .next t ∧ t = { s with mem := t.mem } ∧ Memory.wf t.mem = true ∧
        (∀ k : Index, k ≤ x → Memory.read t.mem (s.base + k.val) = s.v[k]) ∧
        MemSameOutside s t s.base (x.val + 1)

/-- 43_index_memory.md R145: LOAD fills V0 to Vx from I to I+x; the registers above x and all else, memory and
I included, are unchanged. -/
def Obligations.RegistersLoaded : Prop :=
  ∀ x : Index, decodeWord (BitVec.ofNat 16 (0xF065 + x.val * 256)) = .ok (.load x) ∧
    ∀ s : State, s.base + x.val + 1 ≤ 4096 →
      ∃ t, exec (.load x) s = .next t ∧ t = { s with v := t.v } ∧
        ∀ k : Index, t.v[k] = if k ≤ x then Memory.read s.mem (s.base + k.val) else s.v[k]

/-- 20_memory.md R55, 60_exceptions.md R174 with the spec's decision D5: an access of LD_B, STORE, LOAD or DRAW
that would touch an address of 4096 or more raises AddressOutOfRange with the lowest such address, and
nothing else changes, no byte, register or pixel. -/
def Obligations.OutOfRangeAccessHalts : Prop :=
  ∀ (s t : State),
    t = { s with fault := some ⟨.addressOutOfRange, BitVec.ofNat 16 (max s.i.toNat 4096)⟩ } →
    (∀ x, 4096 < s.i.toNat + 3 → exec (.ldB x) s = .next t) ∧
    (∀ x, 4096 < s.i.toNat + x.val + 1 → exec (.store x) s = .next t) ∧
    (∀ x, 4096 < s.i.toNat + x.val + 1 → exec (.load x) s = .next t) ∧
    (∀ x y n, n ≠ 0 → 4096 < s.i.toNat + n.val → exec (.draw x y n) s = .next t)

/-- 43_index_memory.md R146: a LOAD in any later state with the same I and the stored bytes untouched gives V0
to Vx the values that the STORE saved. -/
def Obligations.SaveRestoreRoundTrip : Prop :=
  ∀ (x : Index) (s : State), Memory.wf s.mem = true → s.base + x.val + 1 ≤ 4096 →
    ∃ t, exec (.store x) s = .next t ∧
      ∀ u : State, u.i = s.i →
        (∀ a, s.base ≤ a → a ≤ s.base + x.val → Memory.read u.mem a = Memory.read t.mem a) →
        ∃ w, exec (.load x) u = .next w ∧ ∀ k : Index, k ≤ x → w.v[k] = s.v[k]

/-- 20_memory.md R62 with the spec's decision D22: when a STORE writes the two bytes at the next PC, the next
step executes the word made of the registers just stored. -/
def Obligations.StoreSeenByNextFetch : Prop :=
  ∀ (x k : Index) (h : k.val + 1 < 16) (s : State), s.Ready → Memory.wf s.mem = true →
    decodeWord s.opcode = .ok (.store x) → k.val + 1 ≤ x.val → s.base + x.val + 1 ≤ 4096 →
    s.pc.toNat + 2 = s.base + k.val →
    ∃ t, step s = .next t ∧ step t = execWord
      (BitVec.ofNat 16 (s.v[k].toNat * 256 + s.v[k.val + 1].toNat)) { t with pc := t.pc + 2 }

/-! ### Framebuffer -/

/-- 44_draw.md R150: CLS clears every pixel and changes nothing else. -/
def Obligations.ClearBlanksEveryPixel : Prop :=
  decodeWord 0x00E0 = .ok .cls ∧
  ∀ s : State, ∃ t, exec .cls s = .next t ∧ t = { s with fb := t.fb } ∧
    ∀ row col, Framebuffer.pixel t.fb row col = false

/-- 44_draw.md R151 to R155 with the spec's decisions D13 and D14: DRAW inverts exactly the pixels that a sprite
bit of 1 lands on, clipped at the screen's edges, and changes nothing else but VF. -/
def Obligations.DrawInvertsSpritePixels : Prop :=
  ∀ x y n : Index,
    decodeWord (BitVec.ofNat 16 (0xD000 + x.val * 256 + y.val * 16 + n.val)) = .ok (.draw x y n) ∧
    ∀ s : State, n = 0 ∨ s.base + n.val ≤ 4096 →
      ∃ t, exec (.draw x y n) s = .next t ∧ t = { s with v := t.v, fb := t.fb } ∧
        OtherVSame s t 15 ∧
        ∀ row < 32, ∀ col < 64, Framebuffer.pixel t.fb row col =
          (Framebuffer.pixel s.fb row col != s.spriteBitAt x y n row col)

/-- 44_draw.md R154 with the spec's decisions D13 and D14: DRAW leaves VF = 1 exactly when some pixel of the
screen was set before and a sprite bit of 1 lands on it, and VF = 0 otherwise. -/
def Obligations.DrawReportsCollision : Prop :=
  ∀ (x y n : Index) (s : State), n = 0 ∨ s.base + n.val ≤ 4096 →
    ∃ t, exec (.draw x y n) s = .next t ∧
      ((∃ row < 32, ∃ col < 64, Framebuffer.pixel s.fb row col = true ∧
          s.spriteBitAt x y n row col = true) → t.v[(15 : Index)] = 1) ∧
      ((∀ row < 32, ∀ col < 64, Framebuffer.pixel s.fb row col = true →
          s.spriteBitAt x y n row col = false) → t.v[(15 : Index)] = 0)

/-- 44_draw.md R156 read through R154: a second DRAW with the same coordinates, I and sprite bytes restores the
framebuffer, and reports a collision exactly when a 1 bit of the sprite landed on a pixel that was clear
before the first. R156's own last clause leaves out 'that was clear': it holds when the first DRAW reported
no collision (from a clear screen above all), which the third clause here says (log 28). A sprite without a
1 bit on the screen collides neither time, the last clause. -/
def Obligations.DrawTwiceRestoresScreen : Prop :=
  ∀ (x y n : Index) (s : State), n = 0 ∨ s.base + n.val ≤ 4096 →
    ∃ t, exec (.draw x y n) s = .next t ∧
      ∀ u : State, u.fb = t.fb → u.v[x] = s.v[x] → u.v[y] = s.v[y] → u.i = s.i → u.mem = s.mem →
        ∃ w, exec (.draw x y n) u = .next w ∧ w.fb = s.fb ∧
          (w.v[(15 : Index)] = 1 ↔ ∃ row < 32, ∃ col < 64,
            Framebuffer.pixel s.fb row col = false ∧ s.spriteBitAt x y n row col = true) ∧
          (t.v[(15 : Index)] = 0 → (w.v[(15 : Index)] = 1 ↔ ∃ row < 32, ∃ col < 64,
            s.spriteBitAt x y n row col = true)) ∧
          ((∀ row < 32, ∀ col < 64, s.spriteBitAt x y n row col = false) →
            t.v[(15 : Index)] = 0 ∧ w.v[(15 : Index)] = 0)

/-! ### Keypad and timers -/

/-- 45_keypad_timers.md R160, R161 with the spec's decision D6: for a key index of 0 to 15 SKP skips exactly
when the key is pressed and SKNP exactly when it is not, and nothing but PC changes; for an index above 15
both raise KeyOutOfRange with the index and change nothing else. -/
def Obligations.KeySkips : Prop :=
  ∀ x : Index,
    decodeWord (BitVec.ofNat 16 (0xE09E + x.val * 256)) = .ok (.skp x) ∧
    decodeWord (BitVec.ofNat 16 (0xE0A1 + x.val * 256)) = .ok (.sknp x) ∧
    ∀ s : State,
      (∀ k : Index, s.v[x].toNat = k.val →
        (∃ t, exec (.skp x) s = .next t ∧ t = { s with pc := t.pc } ∧
          t.pc = if s.keys[k] = true then s.pc + 2 else s.pc) ∧
        (∃ t, exec (.sknp x) s = .next t ∧ t = { s with pc := t.pc } ∧
          t.pc = if s.keys[k] = true then s.pc else s.pc + 2)) ∧
      (15 < s.v[x].toNat → ∀ t : State,
        t = { s with fault := some ⟨.keyOutOfRange, BitVec.ofNat 16 s.v[x].toNat⟩ } →
        exec (.skp x) s = .next t ∧ exec (.sknp x) s = .next t)

/-- 45_keypad_timers.md R163, R164 with the spec's decision D10: LD_VX_K sets WAIT and WAITX and nothing else;
the press of any key that was up then puts its code in Vx and ends the wait, with PC still past the
instruction; a key that was down before, set again, does not. -/
def Obligations.KeyWaitSuspendsAndResolves : Prop :=
  ∀ x : Index,
    decodeWord (BitVec.ofNat 16 (0xF00A + x.val * 256)) = .ok (.ldVxK x) ∧
    ∀ s : State, ∃ t, exec (.ldVxK x) s = .next t ∧ t = { s with wait := true, waitx := x } ∧
      (s.fault = none → ∀ k : Index,
        (s.keys[k] = false → ∃ u, transact (.keySet k true) t = .next u ∧ u.wait = false ∧
          u.v[x].toNat = k.val ∧ OtherVSame s u x ∧ u.pc = s.pc) ∧
        (s.keys[k] = true → transact (.keySet k true) t = .next t))

/-- 45_keypad_timers.md R162, R165, R166: LD_VX_DT copies DT to Vx, LD_DT_VX copies Vx to DT and LD_ST_VX
copies Vx to ST; nothing else changes. -/
def Obligations.TimerAccessMovesByte : Prop :=
  ∀ x : Index,
    (decodeWord (BitVec.ofNat 16 (0xF007 + x.val * 256)) = .ok (.ldVxDt x) ∧
      ∀ s : State, ∃ t, exec (.ldVxDt x) s = .next t ∧ t = { s with v := t.v } ∧
        OtherVSame s t x ∧ t.v[x] = s.dt) ∧
    (decodeWord (BitVec.ofNat 16 (0xF015 + x.val * 256)) = .ok (.ldDtVx x) ∧
      ∀ s : State, ∃ t, exec (.ldDtVx x) s = .next t ∧ t = { s with dt := t.dt } ∧ t.dt = s.v[x]) ∧
    (decodeWord (BitVec.ofNat 16 (0xF018 + x.val * 256)) = .ok (.ldStVx x) ∧
      ∀ s : State, ∃ t, exec (.ldStVx x) s = .next t ∧ t = { s with st := t.st } ∧ t.st = s.v[x])

/-! ### Invariants and whole-machine rules -/

/-- 10_state.md R41: the invariant of the state holds right after reset. -/
def Obligations.ResetMeetsInvariant : Prop := Inv State.reset

/-- 10_state.md R41: every step, of an instruction or of a host transaction, keeps the invariant. -/
def Obligations.StepKeepsInvariant : Prop :=
  ∀ s s' : State, Inv s → step s = .next s' → Inv s'

/-- 10_state.md R41: the invariant holds in every state that the host's transactions reach from reset, in any
order. -/
def Obligations.ReachableStatesMeetInvariant : Prop := ∀ s : State, Reachable s → Inv s

/-- 60_exceptions.md R167, R179, 45_keypad_timers.md: every instruction is available at all times: exec answers a
next state for each, on every operand and in every state (a taken fault is a next state, log 1). -/
def Obligations.ExecAlwaysAnswersNext : Prop := ∀ (i : Instr) (s : State), ∃ t, exec i s = .next t

/-- 60_exceptions.md R176 with the spec's decision D9: faults are precise: an instruction that takes a fault
changes nothing but the latch. -/
def Obligations.FaultsArePrecise : Prop :=
  ∀ (i : Instr) (s t : State), exec i s = .next t → t.fault ≠ s.fault →
    ∃ f, t = { s with fault := some f }

/-- 60_exceptions.md R170, R179: which instruction can take which fault, when, and with what information; the
others take none. -/
def Obligations.FaultKindsByInstruction : Prop :=
  ∀ (i : Instr) (s t : State) (f : FaultRecord), s.fault = none → exec i s = .next t →
    t.fault = some f →
    (f = ⟨.stackOverflow, 0⟩ ∧ s.sp = 16 ∧ ∃ nnn, i = .call nnn) ∨
    (f = ⟨.stackUnderflow, 0⟩ ∧ s.sp = 0 ∧ i = .ret) ∨
    (f = ⟨.addressOutOfRange, BitVec.ofNat 16 (max s.i.toNat 4096)⟩ ∧
      ((∃ x, i = .ldB x ∧ 4096 < s.i.toNat + 3) ∨
        (∃ x, (i = .store x ∨ i = .load x) ∧ 4096 < s.i.toNat + x.val + 1) ∨
        (∃ x y n, i = .draw x y n ∧ n ≠ 0 ∧ 4096 < s.i.toNat + n.val))) ∨
    (∃ x, (i = .skp x ∨ i = .sknp x) ∧ 15 < s.v[x].toNat ∧
      f = ⟨.keyOutOfRange, BitVec.ofNat 16 s.v[x].toNat⟩)

/-- 10_state.md R22, R24 to R28, R31, R32, R35, 20_memory.md R56 with the spec's decision D16: an instruction
writes no piece of state but those whose writer it is; none writes the keypad, the schedule or the launch
mark. -/
def Obligations.InstructionsWriteOnlyTheirState : Prop :=
  ∀ (i : Instr) (s t : State), exec i s = .next t →
    (writesPc i = false → t.pc = s.pc) ∧
    (writesStack i = false → t.sp = s.sp ∧ t.stack = s.stack) ∧
    (writesI i = false → t.i = s.i) ∧
    (writesMem i = false → t.mem = s.mem) ∧
    (writesFb i = false → t.fb = s.fb) ∧
    (mayFault i = false → t.fault = s.fault) ∧
    ((∀ x, i ≠ .ldDtVx x) → t.dt = s.dt) ∧
    ((∀ x, i ≠ .ldStVx x) → t.st = s.st) ∧
    ((∀ x, i ≠ .ldVxK x) → t.wait = s.wait ∧ t.waitx = s.waitx) ∧
    ((∀ x kk, i ≠ .rnd x kk) → t.draws = s.draws) ∧
    t.keys = s.keys ∧ t.schedule = s.schedule ∧ t.launching = s.launching

/-- 10_state.md R20, R21: an instruction writes no general register but its destination, VF where it writes the
flag, and V0 to Vx in LOAD. -/
def Obligations.RegistersWrittenOnlyByDestination : Prop :=
  ∀ (i : Instr) (s t : State) (r : Index), exec i s = .next t → writesV i r = false →
    t.v[r] = s.v[r]

/-- 10_state.md R28: over a step a timer rises only when the instruction at PC sets it, to the register it
names; every other step leaves it or lowers it. -/
def Obligations.TimersRiseOnlyByInstruction : Prop :=
  ∀ s s' : State, step s = .next s' →
    (s.dt.toNat < s'.dt.toNat → ∃ x, decodeWord s.opcode = .ok (.ldDtVx x) ∧ s'.dt = s.v[x]) ∧
    (s.st.toNat < s'.st.toNat → ∃ x, decodeWord s.opcode = .ok (.ldStVx x) ∧ s'.st = s.v[x])

/-- 10_state.md R32: a step changes the keypad only when the host's next transaction is KeySet or Reset. -/
def Obligations.KeysWrittenOnlyByHost : Prop :=
  ∀ s s' : State, step s = .next s' → s'.keys ≠ s.keys →
    ∃ rest, s.schedule = .reset :: rest ∨ ∃ k b, s.schedule = .keySet k b :: rest

/-- 10_state.md R31: a step changes the framebuffer only when the instruction at PC is CLS or DRAW, or the
host's next transaction is Reset. -/
def Obligations.ScreenWrittenOnlyByClearAndDraw : Prop :=
  ∀ s s' : State, step s = .next s' → s'.fb ≠ s.fb →
    decodeWord s.opcode = .ok .cls ∨ (∃ x y n, decodeWord s.opcode = .ok (.draw x y n)) ∨
      ∃ rest, s.schedule = .reset :: rest

/-! ### Runs -/

/-- 60_exceptions.md R177, R178, 70_reset_and_hazards.md R208: a fault is never the end of a successful run. A
StepInstruction that leaves a fault in the latch returns it; a run with a halted state in it is not safe and
completes nothing, whatever ends it; and a halted core stays halted over any steps until the host issues
Reset. The fault's form, a next state with the latch set, is log 1. -/
def Obligations.HaltedRunNeverCompletes : Prop :=
  (∀ (s t : State) (f : FaultRecord), transact .stepInstruction s = .next t → t.fault = some f →
    stepResult s = .fault f) ∧
  (∀ (j k : Nat) (s t : State) (done : State → Prop), j ≤ k →
    RunsTo j s t → t.fault ≠ none → ¬SafeRun k s ∧ ¬Completes done k s) ∧
  ∀ (k : Nat) (s t : State) (f : FaultRecord), s.fault = some f → Transaction.reset ∉ s.schedule →
    RunsTo k s t → t.fault = some f

/-- 70_reset_and_hazards.md R208 with the spec's decision D20 (log 29): a core at a jump to its own address completes
at every later step, with the self-jump as the terminal predicate, whatever steps, ticks, key changes and reads
the host has pending and issues after them (log 2): it meets no fault, and everything but the timers, the keys
and the model's own schedule and launch mark stays as it was. Only the launch's transactions, Reset and
LoadProgram, are left out of the schedule. -/
def Obligations.SelfJumpRunCompletes : Prop :=
  ∀ (k : Nat) (s : State), SelfJump s → Transaction.reset ∉ s.schedule →
    (∀ image, Transaction.loadProgram image ∉ s.schedule) →
    Completes SelfJump k s ∧ ∀ t, RunsTo k s t → t = { s with
      dt := t.dt, st := t.st, keys := t.keys, schedule := t.schedule, launching := t.launching }
end

