-- ==== Sys2Proof/Laws/Decode.lean ====
section
/-! SUPPORT. The small lemmas of words, digits and fields, and of the masks of the opcode table. -/

namespace Sys2Proof.Laws

@[simp] theorem fits_index (x : Index) : fits 4 x.val = true := by
  simp only [fits, decide_eq_true_eq]; omega

@[simp] theorem fits_bits (n : Nat) (b : BitVec n) : fits n b.toNat = true := by
  simp only [fits, decide_eq_true_eq]; exact b.isLt

/-- Every instruction is well formed: the operand types carry the bounds. -/
theorem wellFormed_all (i : Instr) : i.wellFormed = true := by
  cases i <;> simp [Instr.wellFormed, Instr.fields]

@[simp] theorem toNat_digitOf (x : Index) : (digitOf x).toNat = x.val := by
  simp only [digitOf, BitVec.toNat_ofNat]; omega

@[simp] theorem indexOf_digitOf (x : Index) : indexOf (digitOf x) = x := by
  ext; simp [indexOf]

@[simp] theorem digitOf_indexOf (d : Nibble) : digitOf (indexOf d) = d := by
  apply BitVec.eq_of_toNat_eq; simp [indexOf]

theorem toNat_wordOfBytes (hi lo : Byte) : (wordOfBytes hi lo).toNat = hi.toNat * 256 + lo.toNat := by
  simp only [wordOfBytes, BitVec.toNat_ofNat]; omega

@[simp] theorem wordOfBytes_hiByte_loByte (w : Word) : wordOfBytes (hiByte w) (loByte w) = w := by
  apply BitVec.eq_of_toNat_eq
  simp only [toNat_wordOfBytes, hiByte, loByte, BitVec.toNat_ofNat]; omega

theorem toNat_ofDigits (a b c d : Nibble) :
    (ofDigits a b c d).toNat = a.toNat * 4096 + b.toNat * 256 + c.toNat * 16 + d.toNat := by
  simp only [ofDigits, BitVec.toNat_ofNat]; omega

@[simp] theorem digit1_ofDigits (a b c d : Nibble) : digit1 (ofDigits a b c d) = a := by
  apply BitVec.eq_of_toNat_eq; simp only [digit1, BitVec.toNat_ofNat, toNat_ofDigits]; omega

@[simp] theorem digit2_ofDigits (a b c d : Nibble) : digit2 (ofDigits a b c d) = b := by
  apply BitVec.eq_of_toNat_eq; simp only [digit2, BitVec.toNat_ofNat, toNat_ofDigits]; omega

@[simp] theorem digit3_ofDigits (a b c d : Nibble) : digit3 (ofDigits a b c d) = c := by
  apply BitVec.eq_of_toNat_eq; simp only [digit3, BitVec.toNat_ofNat, toNat_ofDigits]; omega

@[simp] theorem digit4_ofDigits (a b c d : Nibble) : digit4 (ofDigits a b c d) = d := by
  apply BitVec.eq_of_toNat_eq; simp only [digit4, BitVec.toNat_ofNat, toNat_ofDigits]; omega

@[simp] theorem ofDigits_digits (w : Word) : ofDigits (digit1 w) (digit2 w) (digit3 w) (digit4 w) = w := by
  apply BitVec.eq_of_toNat_eq
  simp only [toNat_ofDigits, digit1, digit2, digit3, digit4, BitVec.toNat_ofNat]; omega

theorem toNat_wordNNN (m : Nibble) (nnn : Addr12) : (wordNNN m nnn).toNat = m.toNat * 4096 + nnn.toNat := by
  simp only [wordNNN, BitVec.toNat_ofNat]; omega

theorem toNat_wordXKK (m : Nibble) (x : Index) (kk : Byte) :
    (wordXKK m x kk).toNat = m.toNat * 4096 + x.val * 256 + kk.toNat := by
  simp only [wordXKK, BitVec.toNat_ofNat]; omega

theorem toNat_wordXY (m : Nibble) (x y : Index) (d : Nibble) :
    (wordXY m x y d).toNat = m.toNat * 4096 + x.val * 256 + y.val * 16 + d.toNat := by
  simp only [wordXY, toNat_ofDigits, toNat_digitOf]

/-- The mask of digit1 alone keeps digit1. -/
theorem toNat_and_F000 (w : Word) : (w &&& 0xF000#16).toNat = w.toNat / 4096 * 4096 := by
  rw [show (w &&& 0xF000#16) = (w >>> 12) <<< 12 by
    apply BitVec.eq_of_getLsbD_eq; intro k hk; interval_cases k <;> simp]
  simp [BitVec.toNat_shiftLeft, Nat.shiftRight_eq_div_pow, Nat.shiftLeft_eq]; omega

/-- The mask of digit1 and digit4 keeps both. -/
theorem toNat_and_F00F (w : Word) :
    (w &&& 0xF00F#16).toNat = w.toNat / 4096 * 4096 + w.toNat % 16 := by
  rw [show (w &&& 0xF00F#16) = (w >>> 12) <<< 12 + (w <<< 12) >>> 12 by
    rw [BitVec.add_eq_or_of_and_eq_zero]
    all_goals apply BitVec.eq_of_getLsbD_eq; intro k hk; interval_cases k <;> simp]
  simp [BitVec.toNat_shiftLeft, Nat.shiftRight_eq_div_pow, Nat.shiftLeft_eq]; omega

/-- The mask of digit1 and the low byte keeps both. -/
theorem toNat_and_F0FF (w : Word) :
    (w &&& 0xF0FF#16).toNat = w.toNat / 4096 * 4096 + w.toNat % 256 := by
  rw [show (w &&& 0xF0FF#16) = (w >>> 12) <<< 12 + (w <<< 8) >>> 8 by
    rw [BitVec.add_eq_or_of_and_eq_zero]
    all_goals apply BitVec.eq_of_getLsbD_eq; intro k hk; interval_cases k <;> simp]
  simp [BitVec.toNat_shiftLeft, Nat.shiftRight_eq_div_pow, Nat.shiftLeft_eq]; omega

end Sys2Proof.Laws
end

