-- ==== Sys2Proof/Laws/Memory.lean ====
section
/-! SUPPORT. The laws of memory: a write changes the byte written and no other, and every operation keeps
the canonical form. -/

namespace Sys2Proof.Machine.Memory

theorem wfFrom_cons {low k : Nat} {c : Byte} {m : Memory} :
    wfFrom low ((k, c) :: m) = true ↔
      low ≤ k ∧ k < 4096 ∧ c ≠ unlisted k ∧ wfFrom (k + 1) m = true := by
  simp [wfFrom, and_assoc]

theorem wfFrom_mono {low high : Nat} {m : Memory} (h : wfFrom high m = true) (hl : low ≤ high) :
    wfFrom low m = true := by
  cases m with
  | nil => rfl
  | cons c m => rw [wfFrom_cons] at h ⊢; exact ⟨by omega, h.2⟩

/-- Below the first cell every address reads as unlisted. -/
theorem read_of_lt {low a : Nat} {m : Memory} (h : wfFrom low m = true) (ha : a < low) :
    read m a = unlisted a := by
  induction m generalizing low with
  | nil => rfl
  | cons c m ih =>
    obtain ⟨hk, -, -, hm⟩ := wfFrom_cons.mp h
    rw [read, if_neg (by omega), ih hm (by omega)]

theorem read_cons_self {low a : Nat} {b : Byte} {m : Memory} (h : wfFrom low m = true) (ha : a < low) :
    read (cons a b m) a = b := by
  unfold cons
  split
  · rename_i hb; rw [read_of_lt h ha, hb]
  · rw [read, if_pos rfl]

theorem read_cons_ne {a c : Nat} {b : Byte} {m : Memory} (h : c ≠ a) :
    read (cons a b m) c = read m c := by
  unfold cons
  split
  · rfl
  · rw [read, if_neg h]

theorem wfFrom_consCell {low a : Nat} {b : Byte} {m : Memory} (hm : wfFrom (a + 1) m = true)
    (hl : low ≤ a) (ha : a < 4096) : wfFrom low (cons a b m) = true := by
  unfold cons
  split
  · exact wfFrom_mono hm (by omega)
  · exact wfFrom_cons.mpr ⟨hl, ha, by assumption, hm⟩

/-- A read after a write to the same address gives the byte written. -/
theorem read_write_self {low a : Nat} {b : Byte} {m : Memory} (h : wfFrom low m = true) :
    read (write m a b) a = b := by
  induction m generalizing low with
  | nil => exact read_cons_self (low := a + 1) rfl (by omega)
  | cons c m ih =>
    obtain ⟨hk, hk', hc, hm⟩ := wfFrom_cons.mp h
    rw [write]
    split
    · exact read_cons_self (low := c.1) (wfFrom_cons.mpr ⟨le_refl _, hk', hc, hm⟩) (by assumption)
    · split
      · exact read_cons_self hm (by omega)
      · rw [read, if_neg (by assumption), ih hm]

/-- A write leaves every other address alone. -/
theorem read_write_ne {a c : Nat} {b : Byte} {m : Memory} (h : c ≠ a) :
    read (write m a b) c = read m c := by
  induction m with
  | nil => exact read_cons_ne h
  | cons d m ih =>
    rw [write]
    split
    · exact read_cons_ne h
    · split
      · rw [read_cons_ne h, read, if_neg (by omega)]
      · simp only [read, ih]

/-- A write to an address of memory keeps the canonical form. -/
theorem wfFrom_write {low a : Nat} {b : Byte} {m : Memory} (h : wfFrom low m = true) (hl : low ≤ a)
    (ha : a < 4096) : wfFrom low (write m a b) = true := by
  induction m generalizing low with
  | nil => exact wfFrom_consCell rfl hl ha
  | cons c m ih =>
    obtain ⟨hk, hk', hc, hm⟩ := wfFrom_cons.mp h
    rw [write]
    split
    · exact wfFrom_consCell (wfFrom_cons.mpr ⟨by omega, hk', hc, hm⟩) hl ha
    · split
      · exact wfFrom_consCell (wfFrom_mono hm (by omega)) hl ha
      · exact wfFrom_cons.mpr ⟨hk, hk', hc, ih hm (by omega)⟩

theorem wf_write {a : Nat} {b : Byte} {m : Memory} (h : wf m = true) (ha : a < 4096) :
    wf (write m a b) = true := wfFrom_write h (by omega) ha

theorem wf_writeBytes {a : Nat} {bs : List Byte} {m : Memory} (h : wf m = true)
    (ha : bs = [] ∨ a + bs.length ≤ 4096) : wf (writeBytes m a bs) = true := by
  induction bs generalizing a m with
  | nil => exact h
  | cons b bs ih =>
    simp only [List.length_cons, reduceCtorEq, false_or] at ha
    exact ih (wf_write h (by omega)) (by omega)

/-- Storing bytes leaves every address outside them alone. -/
theorem read_writeBytes_outside {a c : Nat} {bs : List Byte} {m : Memory}
    (h : c < a ∨ a + bs.length ≤ c) : read (writeBytes m a bs) c = read m c := by
  induction bs generalizing a m with
  | nil => rfl
  | cons b bs ih =>
    simp only [List.length_cons] at h
    rw [writeBytes, ih (by omega), read_write_ne (by omega)]

/-- Storing bytes puts each at its address. -/
theorem read_writeBytes_inside {a k : Nat} {bs : List Byte} {m : Memory} (h : wf m = true)
    (ha : a + bs.length ≤ 4096) (hk : k < bs.length) :
    read (writeBytes m a bs) (a + k) = bs[k] := by
  induction bs generalizing a k m with
  | nil => simp at hk
  | cons b bs ih =>
    simp only [List.length_cons] at ha hk
    rw [writeBytes]
    cases k with
    | zero => rw [read_writeBytes_outside (by omega)]; exact read_write_self h
    | succ k =>
      rw [show a + (k + 1) = a + 1 + k by omega, ih (wf_write h (by omega)) (by omega) (by omega)]
      rfl

@[simp] theorem length_readBytes (m : Memory) (a n : Nat) : (readBytes m a n).length = n := by
  simp [readBytes]

@[simp] theorem getElem_readBytes (m : Memory) (a n k : Nat) (h : k < (readBytes m a n).length) :
    (readBytes m a n)[k] = read m (a + k) := by
  simp [readBytes]

/-- Reset memory has the canonical form: it lists nothing. -/
theorem wf_reset : wf State.reset.mem = true := rfl

/-- Outside the font table reset memory reads 0 (10_state.md R39). -/
theorem read_reset_of_ge {a : Nat} (h : 0x200 ≤ a) : read State.reset.mem a = 0 := by
  show resetByte _ _ a = 0
  rw [resetByte, if_neg (by omega)]

end Sys2Proof.Machine.Memory
end

