-- ==== Sys2Proof/Laws/State.lean ====
section
/-! SUPPORT. One lemma per field per update of State, true by rfl: what each named update leaves alone and
what it writes. -/

namespace Sys2Proof.Machine.State


/-! ### setV -/

theorem setV_v (s : State) (x : Index) (b : Byte) : (s.setV x b).v = s.v.set x.val b x.isLt := rfl
@[simp] theorem setV_i (s : State) (x : Index) (b : Byte) : (s.setV x b).i = s.i := rfl
@[simp] theorem setV_pc (s : State) (x : Index) (b : Byte) : (s.setV x b).pc = s.pc := rfl
@[simp] theorem setV_sp (s : State) (x : Index) (b : Byte) : (s.setV x b).sp = s.sp := rfl
@[simp] theorem setV_stack (s : State) (x : Index) (b : Byte) : (s.setV x b).stack = s.stack := rfl
@[simp] theorem setV_dt (s : State) (x : Index) (b : Byte) : (s.setV x b).dt = s.dt := rfl
@[simp] theorem setV_st (s : State) (x : Index) (b : Byte) : (s.setV x b).st = s.st := rfl
@[simp] theorem setV_mem (s : State) (x : Index) (b : Byte) : (s.setV x b).mem = s.mem := rfl
@[simp] theorem setV_fb (s : State) (x : Index) (b : Byte) : (s.setV x b).fb = s.fb := rfl
@[simp] theorem setV_keys (s : State) (x : Index) (b : Byte) : (s.setV x b).keys = s.keys := rfl
@[simp] theorem setV_wait (s : State) (x : Index) (b : Byte) : (s.setV x b).wait = s.wait := rfl
@[simp] theorem setV_waitx (s : State) (x : Index) (b : Byte) : (s.setV x b).waitx = s.waitx := rfl
@[simp] theorem setV_fault (s : State) (x : Index) (b : Byte) : (s.setV x b).fault = s.fault := rfl
@[simp] theorem setV_draws (s : State) (x : Index) (b : Byte) : (s.setV x b).draws = s.draws := rfl
@[simp] theorem setV_schedule (s : State) (x : Index) (b : Byte) : (s.setV x b).schedule = s.schedule := rfl
@[simp] theorem setV_launching (s : State) (x : Index) (b : Byte) : (s.setV x b).launching = s.launching := rfl

/-! ### setLowV -/

@[simp] theorem setLowV_i (s : State) (x : Index) (g : Nat → Byte) : (s.setLowV x g).i = s.i := by rw [setLowV]
@[simp] theorem setLowV_pc (s : State) (x : Index) (g : Nat → Byte) : (s.setLowV x g).pc = s.pc := by rw [setLowV]
@[simp] theorem setLowV_sp (s : State) (x : Index) (g : Nat → Byte) : (s.setLowV x g).sp = s.sp := by rw [setLowV]
@[simp] theorem setLowV_stack (s : State) (x : Index) (g : Nat → Byte) : (s.setLowV x g).stack = s.stack := by rw [setLowV]
@[simp] theorem setLowV_dt (s : State) (x : Index) (g : Nat → Byte) : (s.setLowV x g).dt = s.dt := by rw [setLowV]
@[simp] theorem setLowV_st (s : State) (x : Index) (g : Nat → Byte) : (s.setLowV x g).st = s.st := by rw [setLowV]
@[simp] theorem setLowV_mem (s : State) (x : Index) (g : Nat → Byte) : (s.setLowV x g).mem = s.mem := by rw [setLowV]
@[simp] theorem setLowV_fb (s : State) (x : Index) (g : Nat → Byte) : (s.setLowV x g).fb = s.fb := by rw [setLowV]
@[simp] theorem setLowV_keys (s : State) (x : Index) (g : Nat → Byte) : (s.setLowV x g).keys = s.keys := by rw [setLowV]
@[simp] theorem setLowV_wait (s : State) (x : Index) (g : Nat → Byte) : (s.setLowV x g).wait = s.wait := by rw [setLowV]
@[simp] theorem setLowV_waitx (s : State) (x : Index) (g : Nat → Byte) : (s.setLowV x g).waitx = s.waitx := by rw [setLowV]
@[simp] theorem setLowV_fault (s : State) (x : Index) (g : Nat → Byte) : (s.setLowV x g).fault = s.fault := by rw [setLowV]
@[simp] theorem setLowV_draws (s : State) (x : Index) (g : Nat → Byte) : (s.setLowV x g).draws = s.draws := by rw [setLowV]
@[simp] theorem setLowV_schedule (s : State) (x : Index) (g : Nat → Byte) : (s.setLowV x g).schedule = s.schedule := by rw [setLowV]
@[simp] theorem setLowV_launching (s : State) (x : Index) (g : Nat → Byte) : (s.setLowV x g).launching = s.launching := by rw [setLowV]

/-! ### setFlagged -/

@[simp] theorem setFlagged_i (s : State) (x : Index) (out : Bool × Byte) : (s.setFlagged x out).i = s.i := rfl
@[simp] theorem setFlagged_pc (s : State) (x : Index) (out : Bool × Byte) : (s.setFlagged x out).pc = s.pc := rfl
@[simp] theorem setFlagged_sp (s : State) (x : Index) (out : Bool × Byte) : (s.setFlagged x out).sp = s.sp := rfl
@[simp] theorem setFlagged_stack (s : State) (x : Index) (out : Bool × Byte) : (s.setFlagged x out).stack = s.stack := rfl
@[simp] theorem setFlagged_dt (s : State) (x : Index) (out : Bool × Byte) : (s.setFlagged x out).dt = s.dt := rfl
@[simp] theorem setFlagged_st (s : State) (x : Index) (out : Bool × Byte) : (s.setFlagged x out).st = s.st := rfl
@[simp] theorem setFlagged_mem (s : State) (x : Index) (out : Bool × Byte) : (s.setFlagged x out).mem = s.mem := rfl
@[simp] theorem setFlagged_fb (s : State) (x : Index) (out : Bool × Byte) : (s.setFlagged x out).fb = s.fb := rfl
@[simp] theorem setFlagged_keys (s : State) (x : Index) (out : Bool × Byte) : (s.setFlagged x out).keys = s.keys := rfl
@[simp] theorem setFlagged_wait (s : State) (x : Index) (out : Bool × Byte) : (s.setFlagged x out).wait = s.wait := rfl
@[simp] theorem setFlagged_waitx (s : State) (x : Index) (out : Bool × Byte) : (s.setFlagged x out).waitx = s.waitx := rfl
@[simp] theorem setFlagged_fault (s : State) (x : Index) (out : Bool × Byte) : (s.setFlagged x out).fault = s.fault := rfl
@[simp] theorem setFlagged_draws (s : State) (x : Index) (out : Bool × Byte) : (s.setFlagged x out).draws = s.draws := rfl
@[simp] theorem setFlagged_schedule (s : State) (x : Index) (out : Bool × Byte) : (s.setFlagged x out).schedule = s.schedule := rfl
@[simp] theorem setFlagged_launching (s : State) (x : Index) (out : Bool × Byte) : (s.setFlagged x out).launching = s.launching := rfl

/-! ### advance -/

@[simp] theorem advance_v (s : State) : (s.advance).v = s.v := rfl
@[simp] theorem advance_i (s : State) : (s.advance).i = s.i := rfl
@[simp] theorem advance_pc (s : State) : (s.advance).pc = s.pc + 2 := rfl
@[simp] theorem advance_sp (s : State) : (s.advance).sp = s.sp := rfl
@[simp] theorem advance_stack (s : State) : (s.advance).stack = s.stack := rfl
@[simp] theorem advance_dt (s : State) : (s.advance).dt = s.dt := rfl
@[simp] theorem advance_st (s : State) : (s.advance).st = s.st := rfl
@[simp] theorem advance_mem (s : State) : (s.advance).mem = s.mem := rfl
@[simp] theorem advance_fb (s : State) : (s.advance).fb = s.fb := rfl
@[simp] theorem advance_keys (s : State) : (s.advance).keys = s.keys := rfl
@[simp] theorem advance_wait (s : State) : (s.advance).wait = s.wait := rfl
@[simp] theorem advance_waitx (s : State) : (s.advance).waitx = s.waitx := rfl
@[simp] theorem advance_fault (s : State) : (s.advance).fault = s.fault := rfl
@[simp] theorem advance_draws (s : State) : (s.advance).draws = s.draws := rfl
@[simp] theorem advance_schedule (s : State) : (s.advance).schedule = s.schedule := rfl
@[simp] theorem advance_launching (s : State) : (s.advance).launching = s.launching := rfl

/-! ### skipIf -/

@[simp] theorem skipIf_v (s : State) (c : Bool) : (s.skipIf c).v = s.v := by cases c <;> rfl
@[simp] theorem skipIf_i (s : State) (c : Bool) : (s.skipIf c).i = s.i := by cases c <;> rfl
@[simp] theorem skipIf_pc (s : State) (c : Bool) : (s.skipIf c).pc = if c then s.pc + 2 else s.pc := by cases c <;> rfl
@[simp] theorem skipIf_sp (s : State) (c : Bool) : (s.skipIf c).sp = s.sp := by cases c <;> rfl
@[simp] theorem skipIf_stack (s : State) (c : Bool) : (s.skipIf c).stack = s.stack := by cases c <;> rfl
@[simp] theorem skipIf_dt (s : State) (c : Bool) : (s.skipIf c).dt = s.dt := by cases c <;> rfl
@[simp] theorem skipIf_st (s : State) (c : Bool) : (s.skipIf c).st = s.st := by cases c <;> rfl
@[simp] theorem skipIf_mem (s : State) (c : Bool) : (s.skipIf c).mem = s.mem := by cases c <;> rfl
@[simp] theorem skipIf_fb (s : State) (c : Bool) : (s.skipIf c).fb = s.fb := by cases c <;> rfl
@[simp] theorem skipIf_keys (s : State) (c : Bool) : (s.skipIf c).keys = s.keys := by cases c <;> rfl
@[simp] theorem skipIf_wait (s : State) (c : Bool) : (s.skipIf c).wait = s.wait := by cases c <;> rfl
@[simp] theorem skipIf_waitx (s : State) (c : Bool) : (s.skipIf c).waitx = s.waitx := by cases c <;> rfl
@[simp] theorem skipIf_fault (s : State) (c : Bool) : (s.skipIf c).fault = s.fault := by cases c <;> rfl
@[simp] theorem skipIf_draws (s : State) (c : Bool) : (s.skipIf c).draws = s.draws := by cases c <;> rfl
@[simp] theorem skipIf_schedule (s : State) (c : Bool) : (s.skipIf c).schedule = s.schedule := by cases c <;> rfl
@[simp] theorem skipIf_launching (s : State) (c : Bool) : (s.skipIf c).launching = s.launching := by cases c <;> rfl

/-! ### fetched -/

@[simp] theorem fetched_v (s : State) : (s.fetched).v = s.v := rfl
@[simp] theorem fetched_i (s : State) : (s.fetched).i = s.i := rfl
@[simp] theorem fetched_pc (s : State) : (s.fetched).pc = s.pc + 2 := rfl
@[simp] theorem fetched_sp (s : State) : (s.fetched).sp = s.sp := rfl
@[simp] theorem fetched_stack (s : State) : (s.fetched).stack = s.stack := rfl
@[simp] theorem fetched_dt (s : State) : (s.fetched).dt = s.dt := rfl
@[simp] theorem fetched_st (s : State) : (s.fetched).st = s.st := rfl
@[simp] theorem fetched_mem (s : State) : (s.fetched).mem = s.mem := rfl
@[simp] theorem fetched_fb (s : State) : (s.fetched).fb = s.fb := rfl
@[simp] theorem fetched_keys (s : State) : (s.fetched).keys = s.keys := rfl
@[simp] theorem fetched_wait (s : State) : (s.fetched).wait = s.wait := rfl
@[simp] theorem fetched_waitx (s : State) : (s.fetched).waitx = s.waitx := rfl
@[simp] theorem fetched_fault (s : State) : (s.fetched).fault = s.fault := rfl
@[simp] theorem fetched_draws (s : State) : (s.fetched).draws = s.draws := rfl
@[simp] theorem fetched_schedule (s : State) : (s.fetched).schedule = s.schedule := rfl
@[simp] theorem fetched_launching (s : State) : (s.fetched).launching = false := rfl

/-! ### begun -/

@[simp] theorem begun_v (s : State) : (s.begun).v = s.v := rfl
@[simp] theorem begun_i (s : State) : (s.begun).i = s.i := rfl
@[simp] theorem begun_pc (s : State) : (s.begun).pc = s.pc := rfl
@[simp] theorem begun_sp (s : State) : (s.begun).sp = s.sp := rfl
@[simp] theorem begun_stack (s : State) : (s.begun).stack = s.stack := rfl
@[simp] theorem begun_dt (s : State) : (s.begun).dt = s.dt := rfl
@[simp] theorem begun_st (s : State) : (s.begun).st = s.st := rfl
@[simp] theorem begun_mem (s : State) : (s.begun).mem = s.mem := rfl
@[simp] theorem begun_fb (s : State) : (s.begun).fb = s.fb := rfl
@[simp] theorem begun_keys (s : State) : (s.begun).keys = s.keys := rfl
@[simp] theorem begun_wait (s : State) : (s.begun).wait = s.wait := rfl
@[simp] theorem begun_waitx (s : State) : (s.begun).waitx = s.waitx := rfl
@[simp] theorem begun_fault (s : State) : (s.begun).fault = s.fault := rfl
@[simp] theorem begun_draws (s : State) : (s.begun).draws = s.draws := rfl
@[simp] theorem begun_schedule (s : State) : (s.begun).schedule = s.schedule := rfl
@[simp] theorem begun_launching (s : State) : (s.begun).launching = false := rfl

/-! ### stepTimer -/

@[simp] theorem stepTimer_v (s : State) : (s.stepTimer).v = s.v := rfl
@[simp] theorem stepTimer_i (s : State) : (s.stepTimer).i = s.i := rfl
@[simp] theorem stepTimer_pc (s : State) : (s.stepTimer).pc = s.pc := rfl
@[simp] theorem stepTimer_sp (s : State) : (s.stepTimer).sp = s.sp := rfl
@[simp] theorem stepTimer_stack (s : State) : (s.stepTimer).stack = s.stack := rfl
@[simp] theorem stepTimer_dt (s : State) : (s.stepTimer).dt = countdown s.dt := rfl
@[simp] theorem stepTimer_st (s : State) : (s.stepTimer).st = countdown s.st := rfl
@[simp] theorem stepTimer_mem (s : State) : (s.stepTimer).mem = s.mem := rfl
@[simp] theorem stepTimer_fb (s : State) : (s.stepTimer).fb = s.fb := rfl
@[simp] theorem stepTimer_keys (s : State) : (s.stepTimer).keys = s.keys := rfl
@[simp] theorem stepTimer_wait (s : State) : (s.stepTimer).wait = s.wait := rfl
@[simp] theorem stepTimer_waitx (s : State) : (s.stepTimer).waitx = s.waitx := rfl
@[simp] theorem stepTimer_fault (s : State) : (s.stepTimer).fault = s.fault := rfl
@[simp] theorem stepTimer_draws (s : State) : (s.stepTimer).draws = s.draws := rfl
@[simp] theorem stepTimer_schedule (s : State) : (s.stepTimer).schedule = s.schedule := rfl
@[simp] theorem stepTimer_launching (s : State) : (s.stepTimer).launching = s.launching := rfl

/-! ### resetAll -/

@[simp] theorem resetAll_v (s : State) : (s.resetAll).v = State.reset.v := rfl
@[simp] theorem resetAll_i (s : State) : (s.resetAll).i = State.reset.i := rfl
@[simp] theorem resetAll_pc (s : State) : (s.resetAll).pc = State.reset.pc := rfl
@[simp] theorem resetAll_sp (s : State) : (s.resetAll).sp = State.reset.sp := rfl
@[simp] theorem resetAll_stack (s : State) : (s.resetAll).stack = State.reset.stack := rfl
@[simp] theorem resetAll_dt (s : State) : (s.resetAll).dt = State.reset.dt := rfl
@[simp] theorem resetAll_st (s : State) : (s.resetAll).st = State.reset.st := rfl
@[simp] theorem resetAll_mem (s : State) : (s.resetAll).mem = State.reset.mem := rfl
@[simp] theorem resetAll_fb (s : State) : (s.resetAll).fb = State.reset.fb := rfl
@[simp] theorem resetAll_keys (s : State) : (s.resetAll).keys = State.reset.keys := rfl
@[simp] theorem resetAll_wait (s : State) : (s.resetAll).wait = State.reset.wait := rfl
@[simp] theorem resetAll_waitx (s : State) : (s.resetAll).waitx = State.reset.waitx := rfl
@[simp] theorem resetAll_fault (s : State) : (s.resetAll).fault = State.reset.fault := rfl
@[simp] theorem resetAll_draws (s : State) : (s.resetAll).draws = s.draws := rfl
@[simp] theorem resetAll_schedule (s : State) : (s.resetAll).schedule = s.schedule := rfl
@[simp] theorem resetAll_launching (s : State) : (s.resetAll).launching = State.reset.launching := rfl

end Sys2Proof.Machine.State
end

