-- ==== Sys2Proof/Laws/Ops.lean ====
section
/-! SUPPORT. One lemma per shared operation: everything it can do. -/

namespace Sys2Proof.Machine

/-! ### Registers -/

theorem State.getElem_v (s : State) (x : Index) : s.v[x] = s.getV x := rfl

theorem State.getV_setV (s : State) (x r : Index) (b : Byte) :
    (s.setV x b).getV r = if r = x then b else s.getV r := by
  simp only [State.getV, State.setV_v, Fin.getElem_fin, Vector.getElem_set, Fin.ext_iff, eq_comm]

@[simp] theorem State.getV_setV_self (s : State) (x : Index) (b : Byte) : (s.setV x b).getV x = b := by
  simp [State.getV_setV]

theorem State.getV_setV_ne (s : State) {x r : Index} (b : Byte) (h : r ≠ x) :
    (s.setV x b).getV r = s.getV r := by
  simp [State.getV_setV, h]

theorem State.getV_setLowV (s : State) (x r : Index) (g : Nat → Byte) :
    (s.setLowV x g).getV r = if r ≤ x then g r.val else s.getV r := by
  simp [State.getV, State.setLowV]

/-- The flag writers leave the result in Vx, and the flag in VF unless x is 15 (42_load_alu.md R121). -/
theorem State.getV_setFlagged (s : State) (x r : Index) (out : Bool × Byte) :
    (s.setFlagged x out).getV r =
      if r = x then out.2 else if r = vf then flagByte out.1 else s.getV r := by
  simp only [State.setFlagged, State.getV_setV]

theorem State.setV_eq (s : State) (x : Index) (b : Byte) : s.setV x b = { s with v := (s.setV x b).v } := rfl

theorem State.setFlagged_eq (s : State) (x : Index) (out : Bool × Byte) :
    s.setFlagged x out = { s with v := (s.setFlagged x out).v } := rfl

theorem State.setLowV_eq (s : State) (x : Index) (g : Nat → Byte) :
    s.setLowV x g = { s with v := (s.setLowV x g).v } := by rw [State.setLowV]

theorem State.skipIf_eq (s : State) (c : Bool) : s.skipIf c = { s with pc := if c then s.pc + 2 else s.pc } := by
  cases c <;> rfl

@[simp] theorem length_lowV (s : State) (x : Index) : (s.lowV x).length = x.val + 1 := by
  simp [State.lowV]

theorem getElem_lowV (s : State) (x : Index) (k : Nat) (h : k < (s.lowV x).length) :
    (s.lowV x)[k] = s.getV ⟨k, by rw [length_lowV] at h; omega⟩ := by
  simp [State.lowV, State.getV]

/-- Reading V is `getV`, which `simp` leaves folded; so do not unfold `getV` by `simp` from here on. -/
@[simp] theorem State.getElem_v_nat (s : State) (k : Nat) (h : k < 16) : s.v[k]'h = s.getV ⟨k, h⟩ := rfl

/-! ### Faults and guarded operations -/

theorem accessOk_iff {addr n : Nat} : accessOk addr n = true ↔ n = 0 ∨ addr + n ≤ 4096 := by
  simp [accessOk]

/-- Taking a fault writes the latch and nothing else. -/
theorem raise_eq (k : FaultKind) (info : Word) (s : State) :
    raise k info s = .next { s with fault := some ⟨k, info⟩ } := rfl

/-- A guarded access either acts, with the whole access in memory, or takes `AddressOutOfRange`. -/
theorem withAccess_cases (addr n : Nat) (act : State → State) (s : State) :
    ((n = 0 ∨ addr + n ≤ 4096) ∧ withAccess addr n act s = .next (act s)) ∨
    (n ≠ 0 ∧ 4096 < addr + n ∧
      withAccess addr n act s =
        .next { s with fault := some ⟨.addressOutOfRange, badAddress addr⟩ }) := by
  unfold withAccess
  split
  · exact .inl ⟨accessOk_iff.mp ‹_›, rfl⟩
  · rename_i h; rw [accessOk_iff] at h; exact .inr ⟨by omega, by omega, rfl⟩

/-- A push either acts after pushing PC, at a depth below 16, or takes `StackOverflow` at 16. -/
theorem withPush_cases (act : State → State) (s : State) :
    (∃ h : s.sp.val < 16, withPush act s =
      .next (act { s with stack := s.stack.set s.sp.val s.pc h, sp := ⟨s.sp.val + 1, by omega⟩ })) ∨
    (s.sp.val = 16 ∧ withPush act s = .next { s with fault := some ⟨.stackOverflow, 0⟩ }) := by
  unfold withPush
  split
  · exact .inl ⟨‹_›, rfl⟩
  · exact .inr ⟨by omega, rfl⟩

/-- A pop either moves the top entry to PC, or takes `StackUnderflow` at depth 0. -/
theorem popPc_cases (s : State) :
    (∃ h : 0 < s.sp.val, popPc s =
      .next { s with sp := ⟨s.sp.val - 1, by omega⟩, pc := s.stack[s.sp.val - 1]'(by omega) }) ∨
    (s.sp.val = 0 ∧ popPc s = .next { s with fault := some ⟨.stackUnderflow, 0⟩ }) := by
  unfold popPc
  split
  · exact .inr ⟨‹_›, rfl⟩
  · exact .inl ⟨by omega, rfl⟩

/-- A skip by key either skips by the key's level, for an index below 16, or takes `KeyOutOfRange`. -/
theorem skipByKey_cases (x : Index) (pressed : Bool) (s : State) :
    (∃ h : (s.getV x).toNat < 16, skipByKey x pressed s =
      .next (s.skipIf (s.keys[(s.getV x).toNat] == pressed))) ∨
    (16 ≤ (s.getV x).toNat ∧ skipByKey x pressed s =
      .next { s with fault := some ⟨.keyOutOfRange, (s.getV x).setWidth 16⟩ }) := by
  unfold skipByKey
  split
  · exact .inl ⟨‹_›, rfl⟩
  · exact .inr ⟨by omega, rfl⟩

end Sys2Proof.Machine
end

