-- ==== Sys2Proof/Laws/Exec.lean ====
section
/-! SUPPORT. The eight instructions that may fault, each as the one guarded operation it is, so that a proof
cites that operation's cases (Laws/Ops.lean) without unfolding `exec`. -/

namespace Sys2Proof.Machine

theorem exec_ret (s : State) : exec .ret s = popPc s := rfl

theorem exec_call (nnn : Addr12) (s : State) :
    exec (.call nnn) s = withPush (fun t => { t with pc := zextAddr nnn }) s := rfl

theorem exec_skp (x : Index) (s : State) : exec (.skp x) s = skipByKey x true s := rfl

theorem exec_sknp (x : Index) (s : State) : exec (.sknp x) s = skipByKey x false s := rfl

theorem exec_draw (x y n : Index) (s : State) :
    exec (.draw x y n) s = withAccess s.base n.val
      (fun t => { t with fb := (s.drawn x y n).1 }.setV vf (flagByte (s.drawn x y n).2)) s := rfl

theorem exec_ldB (x : Index) (s : State) :
    exec (.ldB x) s = withAccess s.base 3
      (fun t => { t with mem := Memory.writeBytes t.mem s.base (decimalDigits (s.getV x)) }) s := rfl

theorem exec_store (x : Index) (s : State) :
    exec (.store x) s = withAccess s.base (x.val + 1)
      (fun t => { t with mem := Memory.writeBytes t.mem s.base (s.lowV x) }) s := rfl

theorem exec_load (x : Index) (s : State) :
    exec (.load x) s = withAccess s.base (x.val + 1)
      (fun t => t.setLowV x fun k => Memory.read s.mem (s.base + k)) s := rfl

end Sys2Proof.Machine
end

