-- ==== Sys2Proof/Laws/Framebuffer.lean ====
section
/-! SUPPORT. What each drawing operation does to every pixel. -/

namespace Sys2Proof.Machine

@[simp] theorem Framebuffer.pixel_clear (row col : Nat) : Framebuffer.pixel Framebuffer.clear row col = false := by
  unfold Framebuffer.pixel Framebuffer.clear; split <;> simp

/-- Inverting a pixel of the screen inverts it and no other. -/
theorem Framebuffer.pixel_flip (fb : Framebuffer) (row col r c : Nat) :
    Framebuffer.pixel (Framebuffer.flip fb row col) r c =
      (Framebuffer.pixel fb r c ^^ decide (r = row ∧ c = col ∧ row < 32 ∧ col < 64)) := by
  unfold Framebuffer.flip
  by_cases h : row < 32 ∧ col < 64
  · rw [dif_pos h]
    unfold Framebuffer.pixel
    by_cases h' : r < 32 ∧ c < 64
    · rw [dif_pos h', dif_pos h']
      by_cases hr : row = r
      · subst hr
        by_cases hc : col = c
        · subst hc; simp [h]
        · simp [hc, Ne.symm hc]
      · simp [hr, Ne.symm hr]
    · rw [dif_neg h', dif_neg h']
      have : ¬(r = row ∧ c = col ∧ row < 32 ∧ col < 64) := by omega
      simp [this]
  · rw [dif_neg h]
    have : ¬(r = row ∧ c = col ∧ row < 32 ∧ col < 64) := by omega
    simp [this]

/-- One sprite bit: it inverts its pixel when it is 1 and on the screen. -/
theorem pixel_drawBit (row col : Nat) (bit : Bool) (d : Drawing) (r c : Nat) :
    Framebuffer.pixel (drawBit row col bit d).1 r c =
      (Framebuffer.pixel d.1 r c ^^ (decide (r = row ∧ c = col ∧ row < 32 ∧ col < 64) && bit)) := by
  unfold drawBit
  split
  · rename_i h; simp only [Framebuffer.pixel_flip, h.2.2, Bool.and_true]
  · rename_i h
    have : (decide (r = row ∧ c = col ∧ row < 32 ∧ col < 64) && bit) = false := by
      cases bit
      · simp
      · simp only [Bool.and_true, decide_eq_false_iff_not]; rintro ⟨-, -, h1, h2⟩; exact h ⟨by omega, by omega, rfl⟩
    rw [this]; simp

/-- One sprite bit: it collides when it is 1 and its pixel is set. -/
theorem collision_drawBit (row col : Nat) (bit : Bool) (d : Drawing) :
    (drawBit row col bit d).2 = (d.2 || (bit && Framebuffer.pixel d.1 row col)) := by
  unfold drawBit
  split
  · rename_i h; simp [h.2.2]
  · rename_i h
    have : (bit && Framebuffer.pixel d.1 row col) = false := by
      cases bit
      · rfl
      · unfold Framebuffer.pixel; rw [dif_neg]
        · rfl
        · rintro ⟨h1, h2⟩; exact h ⟨by omega, by omega, rfl⟩
    rw [this]; simp

/-- A pixel that the screen has. -/
theorem Framebuffer.pixel_off {fb : Framebuffer} {row col : Nat} (h : ¬(row < 32 ∧ col < 64)) :
    Framebuffer.pixel fb row col = false := by
  unfold Framebuffer.pixel; rw [dif_neg h]

/-- The first `n` bits of a sprite row, drawn from the left. -/
def drawBits (x0 row : Nat) (byte : Byte) (n : Nat) (d : Drawing) : Drawing :=
  (List.range n).foldl (fun d c => drawBit row (x0 + c) (byte.getLsbD (7 - c)) d) d

theorem drawRow_eq_drawBits (x0 row : Nat) (byte : Byte) (d : Drawing) :
    drawRow x0 row byte d = drawBits x0 row byte 8 d := rfl

theorem drawBits_succ (x0 row : Nat) (byte : Byte) (n : Nat) (d : Drawing) :
    drawBits x0 row byte (n + 1) d =
      drawBit row (x0 + n) (byte.getLsbD (7 - n)) (drawBits x0 row byte n d) := by
  simp [drawBits, List.range_succ]

theorem pixel_drawBits (x0 row : Nat) (byte : Byte) (n : Nat) (d : Drawing) (r c : Nat)
    (hr : r < 32) (hc : c < 64) :
    Framebuffer.pixel (drawBits x0 row byte n d).1 r c =
      (Framebuffer.pixel d.1 r c ^^
        (decide (r = row ∧ x0 ≤ c ∧ c - x0 < n) && byte.getLsbD (7 - (c - x0)))) := by
  induction n with
  | zero => simp [drawBits]
  | succ n ih =>
    rw [drawBits_succ, pixel_drawBit, ih]
    by_cases h : r = row ∧ c = x0 + n
    · obtain ⟨rfl, rfl⟩ := h
      simp [hr, hc]
    · have h1 : ¬(r = row ∧ c = x0 + n ∧ row < 32 ∧ x0 + n < 64) := by omega
      have h2 : (r = row ∧ x0 ≤ c ∧ c - x0 < n + 1) ↔ (r = row ∧ x0 ≤ c ∧ c - x0 < n) := by omega
      simp only [h1, h2, decide_false, Bool.false_and, Bool.xor_false]

/-- A sprite row inverts the pixels of its 1 bits, bit 7 leftmost, on its own row only. -/
theorem pixel_drawRow (x0 row : Nat) (byte : Byte) (d : Drawing) (r c : Nat) (hr : r < 32) (hc : c < 64) :
    Framebuffer.pixel (drawRow x0 row byte d).1 r c =
      (Framebuffer.pixel d.1 r c ^^
        (decide (r = row ∧ x0 ≤ c ∧ c - x0 < 8) && byte.getLsbD (7 - (c - x0)))) := by
  rw [drawRow_eq_drawBits, pixel_drawBits _ _ _ _ _ _ _ hr hc]

theorem collision_drawBits (x0 row : Nat) (byte : Byte) (n : Nat) (d : Drawing) :
    (drawBits x0 row byte n d).2 = true ↔
      d.2 = true ∨ ∃ k < n, byte.getLsbD (7 - k) = true ∧ Framebuffer.pixel d.1 row (x0 + k) = true := by
  induction n with
  | zero => simp [drawBits]
  | succ n ih =>
    have hp : Framebuffer.pixel (drawBits x0 row byte n d).1 row (x0 + n) =
        Framebuffer.pixel d.1 row (x0 + n) := by
      by_cases h : row < 32 ∧ x0 + n < 64
      · rw [pixel_drawBits _ _ _ _ _ _ _ h.1 h.2]; simp
      · rw [Framebuffer.pixel_off h, Framebuffer.pixel_off h]
    rw [drawBits_succ, collision_drawBit, hp, Bool.or_eq_true, ih, Bool.and_eq_true, or_assoc]
    refine or_congr Iff.rfl ⟨?_, ?_⟩
    · rintro (⟨k, hk, h⟩ | h)
      · exact ⟨k, by omega, h⟩
      · exact ⟨n, by omega, h⟩
    · rintro ⟨k, hk, h⟩
      rcases Nat.lt_succ_iff_lt_or_eq.mp hk with h' | rfl
      · exact .inl ⟨k, h', h⟩
      · exact .inr h

/-- A sprite row collides when a 1 bit of it lands on a set pixel. -/
theorem collision_drawRow (x0 row : Nat) (byte : Byte) (d : Drawing) :
    (drawRow x0 row byte d).2 = true ↔
      d.2 = true ∨ ∃ k < 8, byte.getLsbD (7 - k) = true ∧ Framebuffer.pixel d.1 row (x0 + k) = true :=
  collision_drawBits x0 row byte 8 d

/-- The bit of a sprite that lands on a pixel: 1 when the pixel is in the sprite's rectangle at
(`row0`, `x0`) and its sprite bit is 1. -/
def spriteBit (sprite : List Byte) (x0 row0 r c : Nat) : Bool :=
  decide (row0 ≤ r ∧ x0 ≤ c ∧ c - x0 < 8) && (sprite.getD (r - row0) 0).getLsbD (7 - (c - x0))

theorem spriteBit_cons (byte : Byte) (rest : List Byte) (x0 row0 r c : Nat) :
    spriteBit (byte :: rest) x0 row0 r c =
      ((decide (r = row0 ∧ x0 ≤ c ∧ c - x0 < 8) && byte.getLsbD (7 - (c - x0))) ^^
        spriteBit rest x0 (row0 + 1) r c) := by
  unfold spriteBit
  rcases Nat.lt_trichotomy r row0 with h | rfl | h
  · have h1 : ¬(row0 ≤ r ∧ x0 ≤ c ∧ c - x0 < 8) := by omega
    have h2 : ¬(r = row0 ∧ x0 ≤ c ∧ c - x0 < 8) := by omega
    have h3 : ¬(row0 + 1 ≤ r ∧ x0 ≤ c ∧ c - x0 < 8) := by omega
    simp only [h1, h2, h3, decide_false, Bool.false_and, Bool.xor_false]
  · simp
  · have h2 : ¬(r = row0 ∧ x0 ≤ c ∧ c - x0 < 8) := by omega
    have h3 : (row0 ≤ r ∧ x0 ≤ c ∧ c - x0 < 8) ↔ (row0 + 1 ≤ r ∧ x0 ≤ c ∧ c - x0 < 8) := by omega
    rw [show r - row0 = (r - (row0 + 1)) + 1 by omega]
    simp only [h2, h3, decide_false, Bool.false_and, Bool.false_xor, List.getD_cons_succ]

/-- A sprite inverts the pixels of the screen that its 1 bits land on. -/
theorem pixel_drawRows (x0 row0 : Nat) (sprite : List Byte) (d : Drawing) (r c : Nat)
    (hr : r < 32) (hc : c < 64) :
    Framebuffer.pixel (drawRows x0 row0 sprite d).1 r c =
      (Framebuffer.pixel d.1 r c ^^ spriteBit sprite x0 row0 r c) := by
  induction sprite generalizing row0 d with
  | nil => simp [drawRows, spriteBit]
  | cons byte rest ih =>
    rw [drawRows, ih, pixel_drawRow _ _ _ _ _ _ hr hc, spriteBit_cons, Bool.xor_assoc]

/-- A sprite collides when one of its 1 bits lands on a pixel that is set before the drawing. -/
theorem collision_drawRows (x0 row0 : Nat) (sprite : List Byte) (d : Drawing) :
    (drawRows x0 row0 sprite d).2 = true ↔
      d.2 = true ∨ ∃ r c, r < 32 ∧ c < 64 ∧ spriteBit sprite x0 row0 r c = true ∧
        Framebuffer.pixel d.1 r c = true := by
  induction sprite generalizing row0 d with
  | nil => simp [drawRows, spriteBit]
  | cons byte rest ih =>
    rw [drawRows, ih, collision_drawRow, or_assoc]
    refine or_congr Iff.rfl ⟨?_, ?_⟩
    · rintro (⟨k, hk, hb, hp⟩ | ⟨r, c, hr, hc, hb, hp⟩)
      · have hon : row0 < 32 ∧ x0 + k < 64 := by
          by_contra h; rw [Framebuffer.pixel_off h] at hp; simp at hp
        refine ⟨row0, x0 + k, hon.1, hon.2, ?_, hp⟩
        simp [spriteBit, hk, hb]
      · have hlow : row0 + 1 ≤ r := by
          by_contra h
          have : ¬(row0 + 1 ≤ r ∧ x0 ≤ c ∧ c - x0 < 8) := by omega
          simp [spriteBit] at hb; omega
        rw [pixel_drawRow _ _ _ _ _ _ hr hc] at hp
        have : ¬(r = row0 ∧ x0 ≤ c ∧ c - x0 < 8) := by omega
        simp only [this, decide_false, Bool.false_and, Bool.xor_false] at hp
        refine ⟨r, c, hr, hc, ?_, hp⟩
        rw [spriteBit_cons, hb]; simp [this]
    · rintro ⟨r, c, hr, hc, hb, hp⟩
      by_cases h : r = row0
      · subst h
        left
        simp only [spriteBit, Bool.and_eq_true, decide_eq_true_eq, Nat.sub_self, List.getD_cons_zero] at hb
        exact ⟨c - x0, hb.1.2.2, hb.2, by rw [show x0 + (c - x0) = c by omega]; exact hp⟩
      · right
        have h2 : ¬(r = row0 ∧ x0 ≤ c ∧ c - x0 < 8) := by omega
        rw [spriteBit_cons] at hb
        simp only [h2, decide_false, Bool.false_and, Bool.false_xor] at hb
        refine ⟨r, c, hr, hc, hb, ?_⟩
        rw [pixel_drawRow _ _ _ _ _ _ hr hc]; simp only [h2, decide_false, Bool.false_and, Bool.xor_false, hp]

end Sys2Proof.Machine
end

