-- ==== Sys2Proof/Laws/PerInstr.lean ====
section
/-! SUPPORT. The statements made per instruction. RowOf: an instruction's word selects the instruction's row of
the opcode table, whatever its operands (30_encoding.md R74 to R78). -/

namespace Sys2Proof.Laws

theorem selects_wordNNN (name : String) (m : Nibble) (p : Word) (nnn : Addr12)
    (h : p.toNat = m.toNat * 4096) : (Row.mk name 0xF000#16 p).selects (wordNNN m nnn) = true := by
  simp only [Row.selects, decide_eq_true_eq]
  apply BitVec.eq_of_toNat_eq
  rw [toNat_and_F000, toNat_wordNNN, h]; omega

theorem selects_wordXKK (name : String) (m : Nibble) (p : Word) (x : Index) (kk : Byte)
    (h : p.toNat = m.toNat * 4096) : (Row.mk name 0xF000#16 p).selects (wordXKK m x kk) = true := by
  simp only [Row.selects, decide_eq_true_eq]
  apply BitVec.eq_of_toNat_eq
  rw [toNat_and_F000, toNat_wordXKK, h]; omega

theorem selects_wordXYN (name : String) (m : Nibble) (p : Word) (x y n : Index)
    (h : p.toNat = m.toNat * 4096) :
    (Row.mk name 0xF000#16 p).selects (wordXY m x y (digitOf n)) = true := by
  simp only [Row.selects, decide_eq_true_eq]
  apply BitVec.eq_of_toNat_eq
  rw [toNat_and_F000, toNat_wordXY, h, toNat_digitOf]; omega

theorem selects_wordXY (name : String) (m d : Nibble) (p : Word) (x y : Index)
    (h : p.toNat = m.toNat * 4096 + d.toNat) :
    (Row.mk name 0xF00F#16 p).selects (wordXY m x y d) = true := by
  simp only [Row.selects, decide_eq_true_eq]
  apply BitVec.eq_of_toNat_eq
  rw [toNat_and_F00F, toNat_wordXY, h]; omega

theorem selects_wordX (name : String) (m : Nibble) (p : Word) (x : Index) (kk : Byte)
    (h : p.toNat = m.toNat * 4096 + kk.toNat) :
    (Row.mk name 0xF0FF#16 p).selects (wordXKK m x kk) = true := by
  simp only [Row.selects, decide_eq_true_eq]
  apply BitVec.eq_of_toNat_eq
  rw [toNat_and_F0FF, toNat_wordXKK, h]; omega

/-- The word of an instruction selects its own row. -/
def RowOf.Statement (i : Instr) : Prop := i.row.selects (encode i) = true

namespace RowOf

theorem nop : Statement .nop := rfl
theorem cls : Statement .cls := rfl
theorem ret : Statement .ret := rfl
theorem jp (nnn : Addr12) : Statement (.jp nnn) := selects_wordNNN _ _ _ nnn rfl
theorem call (nnn : Addr12) : Statement (.call nnn) := selects_wordNNN _ _ _ nnn rfl
theorem seImm (x : Index) (kk : Byte) : Statement (.seImm x kk) := selects_wordXKK _ _ _ x kk rfl
theorem sneImm (x : Index) (kk : Byte) : Statement (.sneImm x kk) := selects_wordXKK _ _ _ x kk rfl
theorem seReg (x y : Index) : Statement (.seReg x y) := selects_wordXY _ _ _ _ x y rfl
theorem ldImm (x : Index) (kk : Byte) : Statement (.ldImm x kk) := selects_wordXKK _ _ _ x kk rfl
theorem addImm (x : Index) (kk : Byte) : Statement (.addImm x kk) := selects_wordXKK _ _ _ x kk rfl
theorem ldReg (x y : Index) : Statement (.ldReg x y) := selects_wordXY _ _ _ _ x y rfl
theorem orReg (x y : Index) : Statement (.orReg x y) := selects_wordXY _ _ _ _ x y rfl
theorem andReg (x y : Index) : Statement (.andReg x y) := selects_wordXY _ _ _ _ x y rfl
theorem xorReg (x y : Index) : Statement (.xorReg x y) := selects_wordXY _ _ _ _ x y rfl
theorem addReg (x y : Index) : Statement (.addReg x y) := selects_wordXY _ _ _ _ x y rfl
theorem sub (x y : Index) : Statement (.sub x y) := selects_wordXY _ _ _ _ x y rfl
theorem shr (x y : Index) : Statement (.shr x y) := selects_wordXY _ _ _ _ x y rfl
theorem subn (x y : Index) : Statement (.subn x y) := selects_wordXY _ _ _ _ x y rfl
theorem shl (x y : Index) : Statement (.shl x y) := selects_wordXY _ _ _ _ x y rfl
theorem sneReg (x y : Index) : Statement (.sneReg x y) := selects_wordXY _ _ _ _ x y rfl
theorem ldI (nnn : Addr12) : Statement (.ldI nnn) := selects_wordNNN _ _ _ nnn rfl
theorem jpV0 (nnn : Addr12) : Statement (.jpV0 nnn) := selects_wordNNN _ _ _ nnn rfl
theorem rnd (x : Index) (kk : Byte) : Statement (.rnd x kk) := selects_wordXKK _ _ _ x kk rfl
theorem draw (x y n : Index) : Statement (.draw x y n) := selects_wordXYN _ _ _ x y n rfl
theorem skp (x : Index) : Statement (.skp x) := selects_wordX _ _ _ x _ rfl
theorem sknp (x : Index) : Statement (.sknp x) := selects_wordX _ _ _ x _ rfl
theorem ldVxDt (x : Index) : Statement (.ldVxDt x) := selects_wordX _ _ _ x _ rfl
theorem ldVxK (x : Index) : Statement (.ldVxK x) := selects_wordX _ _ _ x _ rfl
theorem ldDtVx (x : Index) : Statement (.ldDtVx x) := selects_wordX _ _ _ x _ rfl
theorem ldStVx (x : Index) : Statement (.ldStVx x) := selects_wordX _ _ _ x _ rfl
theorem addI (x : Index) : Statement (.addI x) := selects_wordX _ _ _ x _ rfl
theorem ldF (x : Index) : Statement (.ldF x) := selects_wordX _ _ _ x _ rfl
theorem ldB (x : Index) : Statement (.ldB x) := selects_wordX _ _ _ x _ rfl
theorem store (x : Index) : Statement (.store x) := selects_wordX _ _ _ x _ rfl
theorem load (x : Index) : Statement (.load x) := selects_wordX _ _ _ x _ rfl

end RowOf

end Sys2Proof.Laws
end

