-- ==== Sys2Proof/Laws/Step.lean ====
section
/-! SUPPORT. What a step and each transaction can do, one lemma per case. -/

namespace Sys2Proof.Machine

theorem step_of_no_schedule {s : State} (h : s.schedule = []) : step s = stepInstruction s := by
  rw [step, h]

theorem step_of_schedule {s : State} {t : Transaction} {rest : List Transaction}
    (h : s.schedule = t :: rest) : step s = transact t { s with schedule := rest } := by
  rw [step, h]

theorem stepInstruction_halted {s : State} {f : FaultRecord} (h : s.fault = some f) :
    stepInstruction s = .fault (.halted f) := by
  rw [stepInstruction, h]

theorem stepInstruction_waiting {s : State} (h : s.fault = none) (hw : s.wait = true) :
    stepInstruction s = .next s := by
  rw [stepInstruction, h]; exact if_pos hw

theorem stepInstruction_running {s : State} (h : s.fault = none) (hw : s.wait = false) :
    stepInstruction s = cycle s := by
  rw [stepInstruction, h]; exact if_neg (by simp [hw])

theorem cycle_of_fetch {s : State} (h : s.pc.toNat + 2 ≤ 4096) :
    cycle s = execWord s.opcode s.fetched := by
  rw [cycle, if_pos (accessOk_iff.mpr (.inr h))]

theorem cycle_of_no_fetch {s : State} (h : 4096 < s.pc.toNat + 2) :
    cycle s = .next { s with
      launching := false, fault := some ⟨.addressOutOfRange, badAddress s.pc.toNat⟩ } := by
  rw [cycle, if_neg (by rw [accessOk_iff]; omega)]; rfl

theorem execWord_of_decode {w : Word} {i : Instr} (s : State) (h : decodeWord w = .ok i) :
    execWord w s = exec i s := by
  rw [execWord, h]

theorem execWord_of_error {w : Word} {e : DecodeError} (s : State) (h : decodeWord w = .error e) :
    execWord w s = .next { s with fault := some ⟨.invalidOpcode, w⟩ } := by
  rw [execWord, h]; rfl

theorem loadProgram_of_fits {image : List Byte} {s : State} (h : image.length ≤ 3584)
    (hl : s.launching = true) :
    loadProgram image s = .next { s with mem := Memory.writeBytes s.mem 0x200 image } := by
  rw [loadProgram, if_pos (by simpa [imageFits] using h), if_pos hl]

/-- A load that is accepted fits, comes in the launch, and writes memory only. -/
theorem loadProgram_next {image : List Byte} {s s' : State} (h : loadProgram image s = .next s') :
    image.length ≤ 3584 ∧ s' = { s with mem := Memory.writeBytes s.mem 0x200 image } := by
  unfold loadProgram at h
  split at h
  · split at h
    · cases h; exact ⟨by simpa [imageFits] using ‹imageFits image = true›, rfl⟩
    · cases h
  · cases h

theorem toNat_countdown (b : Byte) : (countdown b).toNat = b.toNat - 1 := by
  unfold countdown
  split
  · subst_vars; rfl
  · rename_i h
    have h0 : b.toNat ≠ 0 := fun h' => h (BitVec.eq_of_toNat_eq h')
    rw [BitVec.toNat_sub]
    show (256 - 1 + b.toNat) % 256 = _
    omega

/-- KeySet either ends a wait, on a press, or writes the key alone. -/
theorem keySet_cases (s : State) (k : Index) (b : Bool) :
    ((b = true ∧ s.keys[k] = false ∧ s.wait = true ∧ s.fault = none) ∧
      s.keySet k b = { ({ s with keys := s.keys.set k.val b k.isLt } : State).setV s.waitx
        (BitVec.ofNat 8 k.val) with wait := false }) ∨
    (¬(b = true ∧ s.keys[k] = false ∧ s.wait = true ∧ s.fault = none) ∧
      s.keySet k b = { s with keys := s.keys.set k.val b k.isLt }) := by
  unfold State.keySet State.isPress
  split
  · rename_i h; left; simp at h; exact ⟨⟨h.1.1.1, h.1.1.2, h.1.2, h.2⟩, rfl⟩
  · rename_i h; right; simp at h; exact ⟨by tauto, rfl⟩

theorem getElem_setKey (s : State) (k j : Index) (b : Bool) :
    (s.keys.set k.val b k.isLt)[j] = if j = k then b else s.keys[j] := by
  simp only [Fin.getElem_fin, Vector.getElem_set, Fin.ext_iff, eq_comm]

/-- The placed word is what the next fetch reads, and the next step runs it (log 23). -/
theorem opcode_placeWord {s : State} (w : Word) (h : Memory.wf s.mem = true) :
    (s.placeWord w).opcode = w := by
  have hp : s.fetchHome.toNat + 2 ≤ 4096 := by
    unfold State.fetchHome
    split
    · rename_i h; rw [accessOk_iff] at h; omega
    · decide
  have h0 := Memory.read_writeBytes_inside (a := s.fetchHome.toNat) (k := 0) (bs := [hiByte w, loByte w])
    h hp (by simp)
  have h1 := Memory.read_writeBytes_inside (a := s.fetchHome.toNat) (k := 1) (bs := [hiByte w, loByte w])
    h hp (by simp)
  simp only [Nat.add_zero] at h0
  have hm : (s.placeWord w).mem = Memory.writeBytes s.mem s.fetchHome.toNat [hiByte w, loByte w] := rfl
  have hpc : (s.placeWord w).pc = s.fetchHome := rfl
  rw [State.opcode, Memory.readWord, hm, hpc, h0, h1]
  exact Laws.wordOfBytes_hiByte_loByte w

end Sys2Proof.Machine
end

