-- ==== Sys2Proof/Laws/Safety.lean ====
section
/-! SUPPORT. Runs, one step at a time, and the latch over one transaction. -/

namespace Sys2Proof.Machine

@[simp] theorem safeRun_zero (s : State) : SafeRun 0 s ↔ s.fault = none := Iff.rfl

@[simp] theorem safeRun_succ (k : Nat) (s : State) :
    SafeRun (k + 1) s ↔ s.fault = none ∧ ∃ t, step s = .next t ∧ SafeRun k t := Iff.rfl

@[simp] theorem runsTo_zero (s t : State) : RunsTo 0 s t ↔ t = s := Iff.rfl

@[simp] theorem runsTo_succ (k : Nat) (s t : State) :
    RunsTo (k + 1) s t ↔ ∃ u, step s = .next u ∧ RunsTo k u t := Iff.rfl

theorem run_succ (k : Nat) (s : State) : Host.Core.run Sys2Proof.core (k + 1) s =
    match step s with
    | .next t => Host.Core.run Sys2Proof.core k t
    | .fault r => .fault r
    | .refused r => .refused r := by
  cases h : step s <;> simp [Host.Core.run, show Sys2Proof.core.step s = step s from rfl, h]

/-- `RunsTo` is the host's run with a next state as its outcome. -/
theorem runsTo_iff_run (k : Nat) (s t : State) :
    RunsTo k s t ↔ Host.Core.run Sys2Proof.core k s = .next t := by
  induction k generalizing s with
  | zero => exact ⟨fun h => congrArg Host.Outcome.next h.symm, fun h => (Host.Outcome.next.inj h).symm⟩
  | succ k ih =>
    rw [runsTo_succ]
    refine ⟨fun ⟨u, hu, hr⟩ => ?_, fun h => ?_⟩
    · have hk := run_succ k s
      rw [hu] at hk
      exact hk.trans ((ih u).mp hr)
    · cases hs : step s with
      | next u =>
        have hk := run_succ k s
        rw [hs] at hk
        exact ⟨u, rfl, (ih u).mpr (hk.symm.trans h)⟩
      | fault r =>
        have hk := run_succ k s
        rw [hs] at hk
        cases hk.symm.trans h
      | refused r =>
        have hk := run_succ k s
        rw [hs] at hk
        cases hk.symm.trans h

/-- A transaction of a halted core other than Reset leaves the latch, and the schedule, as they are
(60_exceptions.md R177, R178). -/
theorem transact_halted {x : Transaction} {s t : State} {f : FaultRecord} (hf : s.fault = some f)
    (hx : x ≠ .reset) (h : transact x s = .next t) : t.fault = some f ∧ t.schedule = s.schedule := by
  cases x with
  | reset => exact absurd rfl hx
  | loadProgram image => obtain ⟨-, rfl⟩ := loadProgram_next h; exact ⟨hf, rfl⟩
  | stepInstruction => rw [transact, stepInstruction_halted hf] at h; cases h
  | keySet k b =>
    injection h with h; subst h
    rcases keySet_cases s k b with ⟨⟨-, -, -, hn⟩, -⟩ | ⟨-, e⟩
    · rw [hf] at hn; cases hn
    · rw [e]; exact ⟨hf, rfl⟩
  | stepTimer => injection h with h; subst h; exact ⟨hf, rfl⟩
  | readFramebuffer => injection h with h; subst h; exact ⟨hf, rfl⟩
  | readSound => injection h with h; subst h; exact ⟨hf, rfl⟩
  | readStatus => injection h with h; subst h; exact ⟨hf, rfl⟩

end Sys2Proof.Machine
end

