-- ==== Sys2Proof/Tests/Slice0.lean ====
section
/-! SUPPORT. Tests on small states, their expected values taken from 95_test_vectors.md or worked by hand
from the encoding tables, and a witness for the hypotheses of every statement that has some. -/

-- One theorem after the other: a thread for each evaluation by the kernel would exhaust the memory limit.
set_option Elab.async false

namespace Sys2Proof.Tests

open Sys2Proof.Machine

/-! ### Well-formedness: one ill-formed term for each check -/

theorem test_fits_refuses_wide_fields :
    fits 4 16 = false ∧ fits 8 256 = false ∧ fits 12 4096 = false := by decide

theorem test_fits_accepts_largest_fields :
    fits 4 15 = true ∧ fits 8 255 = true ∧ fits 12 4095 = true := by decide

theorem test_imageFits_refuses_3585_bytes : imageFits (List.replicate 3585 0) = false := by
  rw [imageFits, List.length_replicate]; decide

theorem test_imageFits_accepts_3584_bytes : imageFits (List.replicate 3584 0) = true := by
  rw [imageFits, List.length_replicate]; decide

/-! ### Decoding: words written out bit by bit from 30_encoding.md R71 to R78 -/

/-- Format Z (R74). -/
theorem test_decode_z :
    decodeWord 0b0000_0000_0000_0000 = .ok .nop ∧
    decodeWord 0b0000_0000_1110_0000 = .ok .cls ∧
    decodeWord 0b0000_0000_1110_1110 = .ok .ret := by decide

/-- Format NNN (R75). -/
theorem test_decode_nnn :
    decodeWord 0b0001_1010_1011_1100 = .ok (.jp 0xABC) ∧
    decodeWord 0b0010_0011_0000_0000 = .ok (.call 0x300) ∧
    decodeWord 0b1010_1111_1111_1111 = .ok (.ldI 0xFFF) ∧
    decodeWord 0b1011_0011_0000_0000 = .ok (.jpV0 0x300) := by decide

/-- Format XKK (R75). -/
theorem test_decode_xkk :
    decodeWord 0b0011_1010_0100_0010 = .ok (.seImm 10 0x42) ∧
    decodeWord 0b0100_1010_0100_0010 = .ok (.sneImm 10 0x42) ∧
    decodeWord 0b0110_1111_1010_1011 = .ok (.ldImm 15 0xAB) ∧
    decodeWord 0b0111_0001_0000_0010 = .ok (.addImm 1 0x02) ∧
    decodeWord 0b1100_0011_0000_1111 = .ok (.rnd 3 0x0F) := by decide

/-- Format XY, the moves, logic and skips (R75, R76). -/
theorem test_decode_xy_logic :
    decodeWord 0b0101_0011_0100_0000 = .ok (.seReg 3 4) ∧
    decodeWord 0b1001_0011_0100_0000 = .ok (.sneReg 3 4) ∧
    decodeWord 0b1000_0001_0010_0000 = .ok (.ldReg 1 2) ∧
    decodeWord 0b1000_0001_0010_0001 = .ok (.orReg 1 2) ∧
    decodeWord 0b1000_0001_0010_0010 = .ok (.andReg 1 2) ∧
    decodeWord 0b1000_0001_0010_0011 = .ok (.xorReg 1 2) := by decide

/-- Format XY, the flag writers (R76), and format XYN (R75). -/
theorem test_decode_xy_flags :
    decodeWord 0b1000_0001_0010_0100 = .ok (.addReg 1 2) ∧
    decodeWord 0b1000_0001_0010_0101 = .ok (.sub 1 2) ∧
    decodeWord 0b1000_0001_0010_0110 = .ok (.shr 1 2) ∧
    decodeWord 0b1000_0001_0010_0111 = .ok (.subn 1 2) ∧
    decodeWord 0b1000_0001_0010_1110 = .ok (.shl 1 2) ∧
    decodeWord 0b1101_0001_0010_0101 = .ok (.draw 1 2 5) := by decide

/-- Format X, the keys and timers (R77, R78). -/
theorem test_decode_x_devices :
    decodeWord 0b1110_0001_1001_1110 = .ok (.skp 1) ∧
    decodeWord 0b1110_0001_1010_0001 = .ok (.sknp 1) ∧
    decodeWord 0b1111_0010_0000_0111 = .ok (.ldVxDt 2) ∧
    decodeWord 0b1111_0001_0000_1010 = .ok (.ldVxK 1) ∧
    decodeWord 0b1111_0000_0001_0101 = .ok (.ldDtVx 0) ∧
    decodeWord 0b1111_0101_0001_1000 = .ok (.ldStVx 5) := by decide

/-- Format X, the index register and memory (R78). -/
theorem test_decode_x_memory :
    decodeWord 0b1111_0001_0001_1110 = .ok (.addI 1) ∧
    decodeWord 0b1111_0010_0010_1001 = .ok (.ldF 2) ∧
    decodeWord 0b1111_0011_0011_0011 = .ok (.ldB 3) ∧
    decodeWord 0b1111_1111_0101_0101 = .ok (.store 15) ∧
    decodeWord 0b1111_0010_0110_0101 = .ok (.load 2) := by decide

/-- Words next to valid ones that select no row (R79). -/
theorem test_decode_refuses_neighbours :
    [0x0001, 0x00E1, 0x00EF, 0x0100, 0x5341, 0x8128, 0x812F, 0x9341, 0xE19F, 0xE1A2, 0xF000, 0xF10B,
      0xF166, 0xFFFF].all (fun w => decodeWord w == .error (.invalidOpcode w)) = true := by decide

/-- Bytes of a stream, and streams too short for an instruction (R70). -/
theorem test_decode_stream :
    decodeBytes [0xA3, 0x00, 0x12] = .ok (.ldI 0x300, [0x12]) ∧
    decodeBytes [0xA3] = .error .truncated ∧ decodeBytes [] = .error .truncated := by decide

/-! ### One step on a small state -/

/-- Reset with the given registers. -/
def withRegs (l : List (Index × Byte)) : State := l.foldl (fun s p => s.setV p.1 p.2) State.reset

/-- What `f` sees of the state after the word at PC has run; `none` if the step stops. -/
def after {α : Type} (w : Word) (s : State) (f : State → α) : Option α :=
  match step (s.placeWord w) with
  | .next t => some (f t)
  | .fault _ => none
  | .refused _ => none

/-- VF, Vx and PC after a step. -/
def flagged (w : Word) (l : List (Index × Byte)) (x : Index) : Option (Byte × Byte × Word) :=
  after w (withRegs l) fun t => (t.v[(15 : Index)], t.v[x], t.pc)

/-- T1. -/
theorem test_nop : after 0x0000 State.reset (fun t => (t.pc, t.fault)) = some (0x202, none) := by
  decide +kernel

/-- T4: an odd target is legal. -/
theorem test_jp : after 0x1201 State.reset (fun t => (t.pc, t.fault)) = some (0x201, none) := by
  decide +kernel

/-- T7: the 16th nested call succeeds. -/
theorem test_call : after 0x2300 { State.reset with sp := 15 } (fun t => (t.pc, t.sp, t.stack[15], t.stack[14])) =
    some (0x300, 16, 0x202, 0) := by decide +kernel

/-- T6. -/
theorem test_call_overflow : after 0x2300 { State.reset with sp := 16 } (fun t => (t.pc, t.sp, t.fault)) =
    some (0x202, 16, some ⟨.stackOverflow, 0⟩) := by decide +kernel

/-- T9: the popped entry stays. -/
theorem test_ret :
    after 0x00EE { State.reset with sp := 1, stack := State.reset.stack.set 0 0xABC }
      (fun t => (t.pc, t.sp, t.stack[0])) = some (0xABC, 0, 0xABC) := by decide +kernel

/-- T8. -/
theorem test_ret_underflow : after 0x00EE State.reset (fun t => (t.pc, t.sp, t.fault)) =
    some (0x202, 0, some ⟨.stackUnderflow, 0⟩) := by decide +kernel

/-- T10: not reduced to 12 bits. -/
theorem test_jpV0 : after 0xBFFF (withRegs [(0, 0xFF)]) State.pc = some 0x10FE := by decide +kernel

/-- T12, T13. -/
theorem test_seImm :
    after 0x3A42 (withRegs [(10, 0x42)]) State.pc = some 0x204 ∧
    after 0x3A42 (withRegs [(10, 0x43)]) State.pc = some 0x202 := by decide +kernel

/-- T14, T15. -/
theorem test_sneImm :
    after 0x4A42 (withRegs [(10, 0x43)]) State.pc = some 0x204 ∧
    after 0x4A42 (withRegs [(10, 0x42)]) State.pc = some 0x202 := by decide +kernel

/-- T16, T17. -/
theorem test_seReg :
    after 0x5330 (withRegs [(3, 9)]) State.pc = some 0x204 ∧
    after 0x5340 (withRegs [(3, 9), (4, 8)]) State.pc = some 0x202 := by decide +kernel

/-- T18, T19. -/
theorem test_sneReg :
    after 0x9330 (withRegs [(3, 9)]) State.pc = some 0x202 ∧
    after 0x9340 (withRegs [(3, 9), (4, 8)]) State.pc = some 0x204 := by decide +kernel

/-- A1. -/
theorem test_ldImm : flagged 0x6FAB [] 15 = some (0xAB, 0xAB, 0x202) := by decide +kernel

/-- A2: wraps, no flag. -/
theorem test_addImm : flagged 0x7102 [(1, 0xFF), (15, 7)] 1 = some (7, 1, 0x202) := by decide +kernel

/-- A4. -/
theorem test_ldReg : flagged 0x8120 [(1, 1), (2, 0x5A)] 1 = some (0, 0x5A, 0x202) := by decide +kernel

/-- A5. -/
theorem test_orReg : flagged 0x8121 [(1, 0xF0), (2, 0x0F), (15, 9)] 1 = some (9, 0xFF, 0x202) := by
  decide +kernel

/-- A6. -/
theorem test_andReg : flagged 0x8122 [(1, 0xF0), (2, 0x3C), (15, 9)] 1 = some (9, 0x30, 0x202) := by
  decide +kernel

/-- A7. -/
theorem test_xorReg : flagged 0x8123 [(1, 0xF0), (2, 0x3C), (15, 9)] 1 = some (9, 0xCC, 0x202) := by
  decide +kernel

/-- A11, A12. -/
theorem test_addReg :
    flagged 0x8124 [(1, 0x7F), (2, 0x80), (15, 1)] 1 = some (0, 0xFF, 0x202) ∧
    flagged 0x8124 [(1, 0x80), (2, 0x80)] 1 = some (1, 0, 0x202) := by decide +kernel

/-- A16, A17: VF as destination and as operand. -/
theorem test_addReg_vf :
    flagged 0x8F14 [(15, 0x10), (1, 2)] 1 = some (0x12, 2, 0x202) ∧
    flagged 0x81F4 [(1, 0x10), (15, 0xF5)] 1 = some (1, 5, 0x202) := by decide +kernel

/-- A18, A22. -/
theorem test_sub :
    flagged 0x8125 [(1, 7), (2, 7)] 1 = some (1, 0, 0x202) ∧
    flagged 0x8F15 [(15, 3), (1, 5)] 1 = some (0xFE, 5, 0x202) := by decide +kernel

/-- A23, A26. -/
theorem test_shr :
    flagged 0x8126 [(1, 0xFE), (2, 0x55)] 1 = some (0, 0x7F, 0x202) ∧
    flagged 0x8F06 [(15, 7)] 15 = some (3, 3, 0x202) := by decide +kernel

/-- A28, A31. -/
theorem test_subn :
    flagged 0x8127 [(1, 5), (2, 3)] 1 = some (0, 0xFE, 0x202) ∧
    flagged 0x81F7 [(1, 5), (15, 3)] 1 = some (0, 0xFE, 0x202) := by decide +kernel

/-- A32, A34. -/
theorem test_shl :
    flagged 0x812E [(1, 0x40), (2, 0xFF), (15, 1)] 1 = some (0, 0x80, 0x202) ∧
    flagged 0x8F0E [(15, 0x81)] 15 = some (2, 2, 0x202) := by decide +kernel

/-- A36: for any free byte r the result is r and 0x0F. -/
theorem test_rnd (r : Byte) (h : Config.drawByte 0 = r) :
    after 0xC30F State.reset (fun t => (t.v[(3 : Index)], t.draws)) = some (r &&& 0x0F, 1) := by
  subst h; rfl

/-- A37: kk = 0 forces 0 whatever the free byte. -/
theorem test_rnd_zero : after 0xC300 (withRegs [(3, 0x55)]) (fun t => t.v[(3 : Index)]) = some 0 := by
  show some (Config.drawByte 0 &&& 0#8) = some 0#8
  rw [BitVec.and_zero]

/-- M1. -/
theorem test_ldI : after 0xAFFF State.reset State.i = some 0xFFF := by decide +kernel

/-- M2, M3. -/
theorem test_addI :
    after 0xF11E { withRegs [(1, 0xFF), (15, 7)] with i := 0xFFF } (fun t => (t.i, t.v[(15 : Index)])) =
      some (0x10FE, 7) ∧
    after 0xF11E { withRegs [(1, 2)] with i := 0xFFFF } State.i = some 1 := by decide +kernel

/-- M6: no masking of V2. -/
theorem test_ldF : after 0xF229 (withRegs [(2, 0xFF)]) State.i =
    some (BitVec.ofNat 16 (Config.fontBase.val + 255 * 5)) := by rfl

/-- M12: the last legal position. -/
theorem test_ldB : after 0xF333 { withRegs [(3, 0xC7)] with i := 0xFFD }
    (fun t => Memory.readBytes t.mem 0xFFC 4) = some [0, 1, 9, 9] := by decide +kernel

/-- M15, and M13: nothing is stored. -/
theorem test_ldB_fault :
    after 0xF333 { State.reset with i := 0xFFFF } State.fault = some (some ⟨.addressOutOfRange, 0xFFFF⟩) ∧
    after 0xF333 { withRegs [(3, 0xC7)] with i := 0xFFE } (fun t => (t.fault, Memory.readBytes t.mem 0xFFE 2)) =
      some (some ⟨.addressOutOfRange, 0x1000⟩, [0, 0]) := by decide +kernel

/-- M16: only V0; I stays. -/
theorem test_store : after 0xF055 { withRegs [(0, 0xAA), (1, 0xBB)] with i := 0x300 }
    (fun t => (Memory.readBytes t.mem 0x300 2, t.i)) = some ([0xAA, 0], 0x300) := by decide +kernel

/-- M18: not even the byte in range is stored. -/
theorem test_store_fault : after 0xF155 { withRegs [(0, 1), (1, 2)] with i := 0xFFF }
    (fun t => (Memory.read t.mem 0xFFF, t.fault)) = some (0, some ⟨.addressOutOfRange, 0x1000⟩) := by
  decide +kernel

/-- M20. -/
theorem test_load :
    after 0xF265 { withRegs [(3, 0x33)] with i := 0x300, mem := [(0x300, 0xA0), (0x301, 0xA1), (0x302, 0xA2)] }
      (fun t => (t.v[0], t.v[1], t.v[2], t.v[3], t.i)) = some (0xA0, 0xA1, 0xA2, 0x33, 0x300) := by
  decide +kernel

/-- M22: no register is loaded. -/
theorem test_load_fault :
    after 0xF165 { withRegs [(0, 5), (1, 6)] with i := 0xFFF, mem := [(0xFFF, 0x77)] }
      (fun t => (t.v[0], t.v[1], t.fault)) = some (5, 6, some ⟨.addressOutOfRange, 0x1000⟩) := by
  decide +kernel

/-- Row 0, columns 0 to 7, of the framebuffer. -/
def topRow (s : State) : List Bool := (List.range 8).map (Framebuffer.pixel s.fb 0)

/-- G14: VF is unchanged. -/
theorem test_cls :
    after 0x00E0 { withRegs [(15, 5)] with fb := Framebuffer.flip State.reset.fb 3 3 }
      (fun t => (Framebuffer.pixel t.fb 3 3, t.v[15])) = some (false, 5) := by decide +kernel

/-- G9: XOR, bit order and collision. -/
theorem test_draw :
    after 0xD121 { State.reset with
        i := 0x300, mem := [(0x300, 0xF0)],
        fb := Framebuffer.flip (Framebuffer.flip State.reset.fb 0 3) 0 4 }
      (fun t => (topRow t, t.v[15])) =
    some ([true, true, true, false, true, false, false, false], 1) := by decide +kernel

/-- G3: the origin (70 mod 64, 40 mod 32) = (6, 8). -/
theorem test_draw_origin :
    after 0xD121 { withRegs [(1, 70), (2, 40), (15, 9)] with i := 0x300, mem := [(0x300, 0x81)] }
      (fun t => ((List.range 10).map fun k => Framebuffer.pixel t.fb 8 (5 + k), t.v[15])) =
    some ([false, true, false, false, false, false, false, false, true, false], 0) := by decide +kernel

/-- K1, K2. -/
theorem test_skp :
    after 0xE19E { withRegs [(1, 7)] with keys := State.reset.keys.set 7 true } State.pc = some 0x204 ∧
    after 0xE19E (withRegs [(1, 7)]) State.pc = some 0x202 := by decide +kernel

/-- K5. -/
theorem test_skp_fault : after 0xE19E (withRegs [(1, 0x10)]) (fun t => (t.pc, t.fault)) =
    some (0x202, some ⟨.keyOutOfRange, 0x10⟩) := by decide +kernel

/-- K3, K4. -/
theorem test_sknp :
    after 0xE1A1 { withRegs [(1, 7)] with keys := State.reset.keys.set 7 true } State.pc = some 0x202 ∧
    after 0xE1A1 (withRegs [(1, 7)]) State.pc = some 0x204 := by decide +kernel

/-- K6. -/
theorem test_sknp_fault : after 0xE1A1 (withRegs [(1, 0xFF)]) (fun t => (t.pc, t.fault)) =
    some (0x202, some ⟨.keyOutOfRange, 0xFF⟩) := by decide +kernel

/-- K8. -/
theorem test_ldVxDt : after 0xF207 { State.reset with dt := 0x39 } (fun t => (t.v[2], t.dt)) =
    some (0x39, 0x39) := by decide +kernel

/-- K9. -/
theorem test_ldDtVx : after 0xF015 (withRegs [(0, 0x3C)]) (fun t => (t.dt, t.st)) = some (0x3C, 0) := by
  decide +kernel

/-- K10. -/
theorem test_ldStVx : after 0xF518 (withRegs [(5, 2)]) (fun t => (t.dt, t.st)) = some (0, 2) := by
  decide +kernel

/-- K11. -/
theorem test_ldVxK : after 0xF10A (withRegs [(1, 5)]) (fun t => (t.wait, t.waitx, t.pc, t.v[1])) =
    some (true, 1, 0x202, 5) := by decide +kernel

/-! ### The other transactions, reset and placing -/

/-- Section 2.6, the key-wait scenario: row 7 ends the wait, row 4 (a key already down) does not. -/
theorem test_key_wait :
    (({ State.reset with wait := true, waitx := 1 } : State).keySet 3 true).v[1] = 3 ∧
    (({ State.reset with wait := true, waitx := 1 } : State).keySet 3 true).wait = false ∧
    (({ State.reset with wait := true, waitx := 1, keys := State.reset.keys.set 3 true } : State).keySet
      3 true).wait = true := by decide +kernel

/-- Section 2.6, StepTimer: from (2, 1) to (1, 0), and from (0, 0) to (0, 0). -/
theorem test_timer :
    (({ State.reset with dt := 2, st := 1 } : State).stepTimer.dt,
      ({ State.reset with dt := 2, st := 1 } : State).stepTimer.st) = (1, 0) ∧
    (State.reset.stepTimer.dt, State.reset.stepTimer.st) = (0, 0) := by decide +kernel

/-- P4: a program comes to memory high byte first, and T21: a fetch fault leaves PC standing. -/
theorem test_boot_and_fetch :
    (match State.boot [0x22, 0x00] with
      | .next t => some (t.opcode, t.pc)
      | _ => none) = some (0x2200, 0x200) ∧
    (match step { State.reset with pc := 0xFFF } with
      | .next t => some (t.pc, t.fault)
      | _ => none) = some (0xFFF, some ⟨.addressOutOfRange, 0x1000⟩) := by decide +kernel

/-- The default font's bytes sum to 13008 (section 2.6, the Reset vector). -/
theorem test_font_sum : (Config.defaultFontData.toList.map BitVec.toNat).sum = 13008 := by decide

/-- With the default font at 0x050, as section 2.2 has it, glyph 0 is at 0x050 and the table's neighbours
are 0 (M23). -/
theorem test_font_placed :
    (List.range 7).map (fun k => resetByte 0x50 (fun j => Config.defaultFontData[j]) (0x4F + k)) =
      [0, 0xF0, 0x90, 0x90, 0x90, 0xF0, 0x20] ∧
    resetByte 0x50 (fun j => Config.defaultFontData[j]) 0xA0 = 0 := by decide

/-- The placed word is what runs next. -/
theorem test_withFetchWord :
    (State.reset.withFetchWord 16 0x8124).opcode = 0x8124 ∧ decodeTableWord 16 0x8124 = some (.addReg 1 2) ∧
    decodeTableWord 16 0x8128 = none := by decide +kernel

/-! ### Witnesses: every statement's hypotheses are met somewhere -/

/-- A running core about to fetch the given word at 0x200. -/
def about (w : Word) : State := State.reset.placeWord w

theorem about_ready (w : Word) : (about w).Ready :=
  ⟨rfl, rfl, rfl, by show (0x200 : Word).toNat + 2 ≤ 4096; decide⟩

theorem witness_DecodeOfEncode :
    (Instr.draw 15 0 15).wellFormed = true ∧ (Instr.jp 0xFFF).wellFormed = true ∧
    (Instr.seImm 15 0xFF).wellFormed = true := by decide

theorem witness_EncodeOfDecode :
    decodeWord 0x0000 = .ok .nop ∧ decodeWord 0xFF65 = .ok (.load 15) ∧
    decodeWord 0x8FF6 = .ok (.shr 15 15) := by decide

theorem witness_DecodeSelectsTheOneRow :
    decodeWord 0xFF65 = .ok (.load 15) ∧ decodeWord 0xFF66 = .error (.invalidOpcode 0xFF66) := by decide

theorem witness_StepRunsDecodedInstruction :
    (about 0x6A07).fault = none ∧ (about 0x6A07).wait = false ∧ (about 0x6A07).pc.toNat + 2 ≤ 4096 ∧
    decodeWord (BitVec.ofNat 16 ((Memory.read (about 0x6A07).mem (about 0x6A07).pc.toNat).toNat * 256 +
      (Memory.read (about 0x6A07).mem ((about 0x6A07).pc.toNat + 1)).toNat)) = .ok (.ldImm 10 7) ∧
    (about 0x6A07).schedule = [] ∧
    ({ about 0x6A07 with schedule := [.stepInstruction, .stepTimer] } : State).schedule =
      .stepInstruction :: [.stepTimer] := by decide +kernel

theorem witness_InvalidOpcodeHalts :
    (about 0xFFFF).Ready ∧
    (0xFFFF : Word).toNat = (Memory.read (about 0xFFFF).mem (about 0xFFFF).pc.toNat).toNat * 256 +
      (Memory.read (about 0xFFFF).mem ((about 0xFFFF).pc.toNat + 1)).toNat ∧
    ∀ r ∈ opcodeTable, r.selects 0xFFFF = false :=
  ⟨about_ready _, by decide +kernel, by decide +kernel⟩

/-- PC = 0xFFF, 0x1000 and 0xFFFF, where the information is 0x1000, 0x1000 and 0xFFFF. -/
theorem witness_FetchOutOfRangeHalts :
    [0xFFF, 0x1000, 0xFFFF].all (fun pc =>
      let s : State := { State.reset with pc := pc }
      decide (s.schedule = [] ∧ s.fault = none ∧ s.wait = false ∧ 4096 < s.pc.toNat + 2)) = true := by
  decide +kernel

/-- A core awaiting a key, and the two transactions that end its wait. -/
theorem witness_AwaitingCoreWaits :
    ∃ s : State, s.fault = none ∧ s.wait = true ∧
      (∃ u, transact .reset s = .next u ∧ u.wait = false) ∧
      ∃ u, transact (.keySet 15 true) s = .next u ∧ u.wait = false :=
  ⟨{ State.reset with wait := true }, rfl, rfl, ⟨_, rfl, rfl⟩, ⟨_, rfl, by decide +kernel⟩⟩

theorem witness_HaltedCoreIsSticky :
    ∃ s : State, s.fault = some ⟨.invalidOpcode, 0xFFFF⟩ ∧ s.dt = 5 ∧
      ∃ u, transact .stepTimer s = .next u ∧ Transaction.stepTimer ≠ .reset :=
  ⟨{ State.reset with fault := some ⟨.invalidOpcode, 0xFFFF⟩, dt := 5 }, rfl, rfl, _, rfl, by decide⟩

theorem witness_LoadProgramCopiesImage :
    Memory.wf State.reset.mem = true ∧ State.reset.launching = true ∧
    (List.replicate 3584 (1 : Byte)).length ≤ 3584 ∧ 3584 < (List.replicate 3585 (1 : Byte)).length ∧
    ([] : List Byte).length ≤ 3584 ∧ ({ State.reset with launching := false } : State).launching = false := by
  rw [List.length_replicate, List.length_replicate]; exact ⟨rfl, rfl, by decide, by decide, by decide, rfl⟩

theorem witness_KeySetWritesKeyAndEndsWait :
    ∃ s : State, true = true ∧ s.keys[(15 : Index)] = false ∧ s.wait = true ∧ s.fault = none :=
  ⟨{ State.reset with wait := true, waitx := 15 }, rfl, by decide +kernel, rfl, rfl⟩

theorem witness_NopOnlyAdvances :
    (about 0).Ready ∧ Memory.read (about 0).mem (about 0).pc.toNat = 0 ∧
    Memory.read (about 0).mem ((about 0).pc.toNat + 1) = 0 :=
  ⟨about_ready _, by decide +kernel, by decide +kernel⟩

theorem witness_JumpGoesToTarget : SelfJump (about 0x1200) ∧ (about 0x1200).schedule = [] :=
  ⟨⟨rfl, rfl, (about_ready _).fetch, 0x200, by decide +kernel, by decide +kernel⟩, rfl⟩

/-- Depths 0 and 15, where CALL pushes, and 16, where it faults. -/
theorem witness_CallPushesReturnAddress :
    State.reset.sp.val = (0 : Fin 16).val ∧ ({ State.reset with sp := 15 } : State).sp.val = (15 : Fin 16).val ∧
    ({ State.reset with sp := 16 } : State).sp.val = 16 := by decide

/-- Depths 1 and 16, where RET pops, and 0, where it faults. -/
theorem witness_ReturnPopsAddress :
    ({ State.reset with sp := 1 } : State).sp.val = (0 : Fin 16).val + 1 ∧
    ({ State.reset with sp := 16 } : State).sp.val = (15 : Fin 16).val + 1 ∧ State.reset.sp.val = 0 := by decide

theorem witness_CallThenReturnComesBack :
    ∃ s t : State, s.sp.val < 16 ∧ s.sp.val = 15 ∧ exec (.call 0x300) s = .next t ∧ t.sp = 16 :=
  ⟨{ State.reset with sp := 15 }, _, by decide, rfl, rfl, rfl⟩

theorem witness_RegisterSkips : (1 : Nibble) ≠ 0 ∧ (15 : Nibble) ≠ 0 := by decide

/-- The hypothesis x ≠ 15 of the flag clauses (AddRegisterSetsCarry, SubtractSetsNoBorrow,
ShiftsMoveBitToFlag); the clauses for Vx hold with x = 15 too. -/
theorem witness_flag_clauses : (0 : Index) ≠ 15 ∧ (14 : Index) ≠ 15 := by decide

theorem witness_DecimalDigitsStored :
    ∃ s : State, Memory.wf s.mem = true ∧ s.base = 0xFFD ∧ s.base + 3 ≤ 4096 :=
  ⟨{ State.reset with i := 0xFFD }, rfl, rfl, by decide⟩

/-- The last legal place of a whole register file, for RegistersStored, RegistersLoaded and
SaveRestoreRoundTrip. -/
theorem witness_RegistersStored :
    ∃ s : State, Memory.wf s.mem = true ∧ s.base = 0xFF0 ∧ s.base + (15 : Index).val + 1 ≤ 4096 :=
  ⟨{ State.reset with i := 0xFF0 }, rfl, rfl, by decide⟩

theorem witness_SaveRestoreRoundTrip :
    ∃ s t : State, Memory.wf s.mem = true ∧ s.base + (15 : Index).val + 1 ≤ 4096 ∧
      exec (.store 15) s = .next t ∧ t.i = s.i :=
  ⟨{ State.reset with i := 0xFF0 }, _, rfl, by decide, rfl, rfl⟩

/-- One byte too many for each of the four instructions. -/
theorem witness_OutOfRangeAccessHalts :
    4096 < (0xFFE : Word).toNat + 3 ∧ 4096 < (0xFF1 : Word).toNat + (15 : Index).val + 1 ∧
    (15 : Index) ≠ 0 ∧ 4096 < (0xFF2 : Word).toNat + (15 : Index).val ∧
    4096 < (0xFFFF : Word).toNat + (1 : Index).val := by decide

/-- STORE of V0 and V1, and of V0 to VF, onto the two bytes after it. -/
theorem witness_StoreSeenByNextFetch :
    (({ about 0xF155 with i := 0x202 } : State).Ready ∧
      Memory.wf (about 0xF155).mem = true ∧ decodeWord (about 0xF155).opcode = .ok (.store 1) ∧
      (0 : Index).val + 1 ≤ (1 : Index).val ∧ (0x202 : Word).toNat + (1 : Index).val + 1 ≤ 4096 ∧
      (about 0xF155).pc.toNat + 2 = (0x202 : Word).toNat + (0 : Index).val) ∧
    (({ about 0xFF55 with i := 0x1F4 } : State).Ready ∧
      Memory.wf (about 0xFF55).mem = true ∧ decodeWord (about 0xFF55).opcode = .ok (.store 15) ∧
      (14 : Index).val + 1 ≤ (15 : Index).val ∧ (0x1F4 : Word).toNat + (15 : Index).val + 1 ≤ 4096 ∧
      (about 0xFF55).pc.toNat + 2 = (0x1F4 : Word).toNat + (14 : Index).val) :=
  ⟨⟨⟨rfl, rfl, rfl, (about_ready 0xF155).fetch⟩, by decide +kernel, by decide +kernel, by decide, by decide,
      by decide +kernel⟩,
    ⟨rfl, rfl, rfl, (about_ready 0xFF55).fetch⟩, by decide +kernel, by decide +kernel, by decide, by decide,
      by decide +kernel⟩

/-- No rows at any I, and the last legal place of 15 rows (DrawInvertsSpritePixels, DrawReportsCollision,
DrawTwiceRestoresScreen). -/
theorem witness_DrawInvertsSpritePixels :
    (∃ s : State, s.base = 0xFFFF ∧ ((0 : Index) = 0 ∨ s.base + (0 : Index).val ≤ 4096)) ∧
    ∃ s : State, s.base = 0xFF1 ∧ ((15 : Index) = 0 ∨ s.base + (15 : Index).val ≤ 4096) :=
  ⟨⟨{ State.reset with i := 0xFFFF }, rfl, .inl rfl⟩, ⟨{ State.reset with i := 0xFF1 }, rfl, .inr (by decide)⟩⟩

/-- A set pixel under a 1 bit of the sprite at (0, 0). -/
def colliding : State :=
  { State.reset with i := 0x300, mem := [(0x300, 0x80)], fb := Framebuffer.flip State.reset.fb 0 0 }

theorem witness_DrawReportsCollision :
    (Framebuffer.pixel colliding.fb 0 0 = true ∧ colliding.spriteBitAt 1 2 1 0 0 = true) ∧
    ∀ row < 32, ∀ col < 64, Framebuffer.pixel State.reset.fb row col = true →
      State.reset.spriteBitAt 1 2 1 row col = false :=
  ⟨by decide +kernel, fun row hr col hc h => by simp [Framebuffer.pixel, State.reset, hr, hc] at h⟩

/-- The second DRAW is in the state that the first left; the first of these two collides, the second does not,
and a sprite of no rows has no 1 bit on the screen. -/
theorem witness_DrawTwiceRestoresScreen :
    (∃ t : State, exec (.draw 1 2 1) colliding = .next t ∧ t.v[(1 : Index)] = colliding.v[(1 : Index)] ∧
      t.v[(2 : Index)] = colliding.v[(2 : Index)] ∧ t.i = colliding.i ∧ t.mem = colliding.mem) ∧
    (∃ t : State, exec (.draw 1 2 1) { colliding with fb := Framebuffer.clear } = .next t ∧
      t.v[(15 : Index)] = 0) ∧
    ∀ row < 32, ∀ col < 64, colliding.spriteBitAt 1 2 0 row col = false :=
  ⟨⟨_, rfl, by decide +kernel, by decide +kernel, rfl, rfl⟩, ⟨_, rfl, by decide +kernel⟩, by decide +kernel⟩

/-- By R154, from FB[0][0] = 1 with the sprite byte 0x80 at (0, 0): the first DRAW erases the pixel (VF = 1), the
second sets it again, and no pixel goes from set to unset (VF = 0); R156's last clause says 1 (log 28). -/
theorem test_second_draw_over_set_pixel :
    (colliding.drawn 1 2 1).2 = true ∧ Framebuffer.pixel (colliding.drawn 1 2 1).1 0 0 = false ∧
    (({ colliding with fb := (colliding.drawn 1 2 1).1 } : State).drawn 1 2 1).2 = false := by
  decide +kernel

theorem witness_KeySkips :
    (withRegs [(1, 15)]).v[(1 : Index)].toNat = (15 : Index).val ∧ 15 < (withRegs [(1, 16)]).v[(1 : Index)].toNat := by
  decide +kernel

theorem witness_KeyWaitSuspendsAndResolves :
    State.reset.fault = none ∧ State.reset.keys[(15 : Index)] = false ∧
    ({ State.reset with keys := State.reset.keys.set 15 true } : State).keys[(15 : Index)] = true := by
  decide +kernel

/-- A state of the invariant at its bounds that takes a step: a return to 0x1000 from the deepest call. -/
def deepest : State :=
  { about 0x00EE with sp := 16, stack := Vector.replicate 16 0x1000 }

theorem witness_StepKeepsInvariant : Inv deepest ∧ ∃ s', step deepest = .next s' ∧ s'.pc = 0x1000 :=
  ⟨⟨by decide +kernel, by decide +kernel, by decide +kernel, fun h => absurd rfl h⟩, by
    exact ⟨_, rfl, rfl⟩⟩

theorem witness_ReachableStatesMeetInvariant :
    ∃ s, Reachable s ∧ s.keys[(3 : Index)] = true :=
  ⟨_, .transact (.keySet 3 true) .reset rfl, by decide +kernel⟩

theorem witness_FaultsArePrecise :
    ∃ t, exec .ret State.reset = .next t ∧ t.fault ≠ State.reset.fault := ⟨_, rfl, by decide⟩

/-- One fault of each kind that an instruction can take. -/
theorem witness_FaultKindsByInstruction :
    (∃ s t : State, s.fault = none ∧ exec (.call 0) s = .next t ∧ t.fault = some ⟨.stackOverflow, 0⟩) ∧
    (∃ s t : State, s.fault = none ∧ exec .ret s = .next t ∧ t.fault = some ⟨.stackUnderflow, 0⟩) ∧
    (∃ s t : State, s.fault = none ∧ exec (.load 1) s = .next t ∧
      t.fault = some ⟨.addressOutOfRange, 0x1000⟩) ∧
    (∃ s t : State, s.fault = none ∧ exec (.sknp 1) s = .next t ∧ t.fault = some ⟨.keyOutOfRange, 16⟩) :=
  ⟨⟨{ State.reset with sp := 16 }, _, rfl, rfl, rfl⟩, ⟨State.reset, _, rfl, rfl, rfl⟩,
    ⟨{ State.reset with i := 0xFFF }, _, rfl, rfl, rfl⟩, ⟨withRegs [(1, 16)], _, rfl, rfl, rfl⟩⟩

/-- A next state of an instruction that writes none of the guarded pieces of state. -/
theorem witness_InstructionsWriteOnlyTheirState :
    ∃ t, exec (.ldImm 3 1) State.reset = .next t ∧ writesPc (.ldImm 3 1) = false ∧
      writesStack (.ldImm 3 1) = false ∧ writesI (.ldImm 3 1) = false ∧ writesMem (.ldImm 3 1) = false ∧
      writesFb (.ldImm 3 1) = false ∧ mayFault (.ldImm 3 1) = false ∧ writesV (.ldImm 3 1) 4 = false :=
  ⟨_, rfl, rfl, rfl, rfl, rfl, rfl, rfl, rfl⟩

/-- V0 to V3 are loaded, V4 and up are not (RegistersWrittenOnlyByDestination). -/
theorem witness_RegistersWrittenOnlyByDestination :
    ∃ t, exec (.load 3) { State.reset with i := 0x300 } = .next t ∧ writesV (.load 3) 4 = false :=
  ⟨_, rfl, rfl⟩

/-- Each timer rises in some step. -/
theorem witness_TimersRiseOnlyByInstruction :
    (after 0xF015 (withRegs [(0, 5)]) fun t => decide ((withRegs [(0, 5)]).dt.toNat < t.dt.toNat)) = some true ∧
    (after 0xF018 (withRegs [(0, 5)]) fun t => decide ((withRegs [(0, 5)]).st.toNat < t.st.toNat)) = some true := by
  decide +kernel

theorem witness_KeysWrittenOnlyByHost :
    ∃ s s' : State, step s = .next s' ∧ s'.keys ≠ s.keys :=
  ⟨{ State.reset with schedule := [.keySet 3 true] }, _, rfl, by decide +kernel⟩

theorem witness_ScreenWrittenOnlyByClearAndDraw :
    ∃ s s' : State, step s = .next s' ∧ s'.fb ≠ s.fb :=
  ⟨{ State.reset with fb := Framebuffer.flip State.reset.fb 0 0, schedule := [.reset] }, _, rfl, fun h => by
    have : Framebuffer.pixel State.reset.fb 0 0 = Framebuffer.pixel (Framebuffer.flip State.reset.fb 0 0) 0 0 :=
      congrArg (fun fb => Framebuffer.pixel fb 0 0) h
    revert this; decide +kernel⟩

/-- The word FFFF runs to a halted state in one step, and a tick leaves it halted: neither run is safe. -/
theorem witness_HaltedRunNeverCompletes :
    (∃ t : State, transact .stepInstruction (about 0xFFFF) = .next t ∧
      t.fault = some ⟨.invalidOpcode, 0xFFFF⟩ ∧ RunsTo 1 (about 0xFFFF) t ∧ t.fault ≠ none) ∧
    ∃ s t : State, s.fault = some ⟨.invalidOpcode, 0xFFFF⟩ ∧ Transaction.reset ∉ s.schedule ∧ RunsTo 1 s t :=
  ⟨⟨_, rfl, by decide +kernel, ⟨_, rfl, rfl⟩, by decide +kernel⟩,
    ⟨{ State.reset with fault := some ⟨.invalidOpcode, 0xFFFF⟩, schedule := [.stepTimer] }, _, rfl, by decide,
      ⟨_, rfl, rfl⟩⟩⟩

/-- A self-jump with a tick, a key press, a step and a read pending. -/
theorem witness_SelfJumpRunCompletes :
    ∃ s : State, SelfJump s ∧ Transaction.reset ∉ s.schedule ∧
      (∀ image, Transaction.loadProgram image ∉ s.schedule) ∧
      s.schedule = [.stepTimer, .keySet 3 true, .stepInstruction, .readSound] :=
  ⟨{ about 0x1200 with schedule := [.stepTimer, .keySet 3 true, .stepInstruction, .readSound] },
    ⟨rfl, rfl, (about_ready 0x1200).fetch, 0x200, by decide +kernel, by decide +kernel⟩, by decide, by simp, rfl⟩

end Sys2Proof.Tests
end

/-! ## The family 10_state.md: the reset values, what an instruction and a transaction can do, and what
every step keeps -/

namespace Sys2Proof.Machine

/-! ### The reset values (10_state.md R39) -/

/-- The font table holds FONT_DATA: FONT_BASE + 80 is at most 0x200 (10_state.md R33). -/
theorem Memory.read_reset_font (k : Fin 80) :
    Memory.read State.reset.mem (Config.fontBase.val + k.val) = Config.fontData k := by
  have hb : Config.fontBase.val + k.val < 0x200 := by omega
  have hk : Config.fontBase.val ≤ Config.fontBase.val + k.val ∧
      Config.fontBase.val + k.val - Config.fontBase.val < 80 := by omega
  show resetByte _ _ _ = _
  rw [resetByte, if_pos hb, dif_pos hk]
  congr 1
  exact Fin.ext (by simp)

theorem Memory.read_reset_outside_font {a : Nat}
    (ha : a < Config.fontBase.val ∨ Config.fontBase.val + 80 ≤ a) :
    Memory.read State.reset.mem a = 0 := by
  by_cases hlow : a < 0x200
  · show resetByte _ _ a = 0
    rw [resetByte, if_pos hlow, dif_neg (by omega)]
  · exact Memory.read_reset_of_ge (by omega)

theorem atReset_reset : AtReset State.reset where
  pc := rfl
  fb := Framebuffer.pixel_clear
  v x := by simp [State.reset, -State.getElem_v_nat]
  i := rfl
  sp := rfl
  stack k := by simp [State.reset]
  dt := rfl
  st := rfl
  keys k := by simp [State.reset]
  font := Memory.read_reset_font
  mem _ := Memory.read_reset_outside_font
  wait := rfl
  waitx := rfl
  fault := rfl

/-- The spec's state after Reset is that of `State.reset`; only the model's own fields are kept. -/
theorem atReset_resetAll (s : State) : AtReset s.resetAll := { atReset_reset with }

/-- Settles O10: every field of the reset state by its definition, memory by its reset contents. -/
theorem resetLeavesResetValues : Obligations.ResetLeavesResetValues :=
  ⟨atReset_reset, fun s => ⟨_, rfl, atReset_resetAll s⟩⟩

/-! ### What an instruction can do -/

/-- What `exec i` can make of a state, one constructor for each kind of effect. Each says what it writes,
which instructions do so, and what is known of the value written; all else is as before. -/
inductive Effect : Instr → State → State → Prop where
  | nothing {s : State} : Effect .nop s s
  | fault {i : Instr} {s : State} (f : FaultRecord) (hi : mayFault i = true) :
      Effect i s { s with fault := some f }
  | registers {i : Instr} {s : State} (v : Vector Byte 16)
      (hv : ∀ r : Index, writesV i r = false → v[r] = s.v[r]) : Effect i s { s with v := v }
  | random {x : Index} {kk : Byte} {s : State} (v : Vector Byte 16)
      (hv : ∀ r : Index, writesV (.rnd x kk) r = false → v[r] = s.v[r]) :
      Effect (.rnd x kk) s { s with v := v, draws := s.draws + 1 }
  | jump {i : Instr} {s : State} (pc : Word) (hi : writesPc i = true)
      (hpc : pc = s.pc ∨ pc = s.pc + 2 ∨ pc.toNat ≤ 0x10FE) : Effect i s { s with pc := pc }
  | push {nnn : Addr12} {s : State} (h : s.sp.val < 16) :
      Effect (.call nnn) s { s with
        stack := s.stack.set s.sp.val s.pc h, sp := ⟨s.sp.val + 1, by omega⟩, pc := zextAddr nnn }
  | pop {s : State} (h : 0 < s.sp.val) :
      Effect .ret s { s with
        sp := ⟨s.sp.val - 1, by omega⟩, pc := s.stack[s.sp.val - 1]'(by omega) }
  | index {i : Instr} {s : State} (w : Word) (hi : writesI i = true) : Effect i s { s with i := w }
  | memory {i : Instr} {s : State} (a : Nat) (bs : List Byte) (hi : writesMem i = true)
      (ha : a + bs.length ≤ 4096) : Effect i s { s with mem := Memory.writeBytes s.mem a bs }
  | screen {i : Instr} {s : State} (fb : Framebuffer) (v : Vector Byte 16) (hi : writesFb i = true)
      (hv : ∀ r : Index, writesV i r = false → v[r] = s.v[r]) : Effect i s { s with fb := fb, v := v }
  | delay {x : Index} {s : State} : Effect (.ldDtVx x) s { s with dt := s.getV x }
  | sound {x : Index} {s : State} : Effect (.ldStVx x) s { s with st := s.getV x }
  | keyWait {x : Index} {s : State} : Effect (.ldVxK x) s { s with waitx := x, wait := true }

/-- An instruction that only writes Vx. -/
theorem Effect.of_setV {i : Instr} {s : State} (x : Index) (b : Byte)
    (hi : ∀ r, writesV i r = false → r ≠ x) : Effect i s (s.setV x b) :=
  .registers _ fun r hr => s.getV_setV_ne b (hi r hr)

/-- An instruction that only writes Vx and the flag. -/
theorem Effect.of_setFlagged {i : Instr} {s : State} (x : Index) (out : Bool × Byte)
    (hi : ∀ r, writesV i r = false → ¬(r = x ∨ r = vf)) : Effect i s (s.setFlagged x out) :=
  .registers _ fun r hr => by
    obtain ⟨hx, hf⟩ := not_or.mp (hi r hr)
    exact (s.getV_setFlagged x r out).trans (by rw [if_neg hx, if_neg hf]; rfl)

/-- An instruction that only writes V0 to Vx. -/
theorem Effect.of_setLowV {i : Instr} {s : State} (x : Index) (g : Nat → Byte)
    (hi : ∀ r, writesV i r = false → ¬ r ≤ x) : Effect i s (s.setLowV x g) := by
  rw [State.setLowV_eq]
  exact .registers _ fun r hr => (s.getV_setLowV x r g).trans (if_neg (hi r hr))

/-- An instruction that only skips or does not. -/
theorem Effect.of_skipIf {i : Instr} {s : State} (c : Bool) (hi : writesPc i = true) :
    Effect i s (s.skipIf c) := by
  rw [State.skipIf_eq]
  exact .jump _ hi (by cases c <;> simp)

theorem toNat_zextAddr (nnn : Addr12) : (zextAddr nnn).toNat = nnn.toNat := by
  simp only [zextAddr, BitVec.toNat_setWidth]; omega

theorem toNat_zextByte (b : Byte) : (zextByte b).toNat = b.toNat := by
  simp only [zextByte, BitVec.toNat_setWidth]; omega

theorem toNat_add_two (w : Word) : (w + 2).toNat = (w.toNat + 2) % 65536 := BitVec.toNat_add w 2

/-- The largest target of JP_V0: 0xFF + 0xFFF. -/
theorem toNat_jpV0_le (b : Byte) (nnn : Addr12) : (zextByte b + zextAddr nnn).toNat ≤ 0x10FE := by
  rw [BitVec.toNat_add, toNat_zextByte, toNat_zextAddr]; omega

/-- Every instruction answers a next state, by one of the effects. -/
theorem exec_effect (i : Instr) (s : State) : ∃ t, exec i s = .next t ∧ Effect i s t := by
  cases i with
  | nop => exact ⟨_, rfl, .nothing⟩
  | cls => exact ⟨_, rfl, .screen _ s.v rfl fun _ _ => rfl⟩
  | ret =>
    rw [exec_ret]
    obtain ⟨h, e⟩ | ⟨-, e⟩ := popPc_cases s
    · exact ⟨_, e, .pop h⟩
    · exact ⟨_, e, .fault _ rfl⟩
  | jp nnn => exact ⟨_, rfl, .jump _ rfl (.inr (.inr (by rw [toNat_zextAddr]; omega)))⟩
  | call nnn =>
    rw [exec_call]
    obtain ⟨h, e⟩ | ⟨-, e⟩ := withPush_cases (fun t => { t with pc := zextAddr nnn }) s
    · exact ⟨_, e, .push h⟩
    · exact ⟨_, e, .fault _ rfl⟩
  | seImm x kk => exact ⟨_, rfl, .of_skipIf _ rfl⟩
  | sneImm x kk => exact ⟨_, rfl, .of_skipIf _ rfl⟩
  | seReg x y => exact ⟨_, rfl, .of_skipIf _ rfl⟩
  | sneReg x y => exact ⟨_, rfl, .of_skipIf _ rfl⟩
  | ldImm x kk => exact ⟨_, rfl, .of_setV x _ fun _ => of_decide_eq_false⟩
  | addImm x kk => exact ⟨_, rfl, .of_setV x _ fun _ => of_decide_eq_false⟩
  | ldReg x y => exact ⟨_, rfl, .of_setV x _ fun _ => of_decide_eq_false⟩
  | orReg x y => exact ⟨_, rfl, .of_setV x _ fun _ => of_decide_eq_false⟩
  | andReg x y => exact ⟨_, rfl, .of_setV x _ fun _ => of_decide_eq_false⟩
  | xorReg x y => exact ⟨_, rfl, .of_setV x _ fun _ => of_decide_eq_false⟩
  | ldVxDt x => exact ⟨_, rfl, .of_setV x _ fun _ => of_decide_eq_false⟩
  | addReg x y => exact ⟨_, rfl, .of_setFlagged x _ fun _ => of_decide_eq_false⟩
  | sub x y => exact ⟨_, rfl, .of_setFlagged x _ fun _ => of_decide_eq_false⟩
  | shr x y => exact ⟨_, rfl, .of_setFlagged x _ fun _ => of_decide_eq_false⟩
  | subn x y => exact ⟨_, rfl, .of_setFlagged x _ fun _ => of_decide_eq_false⟩
  | shl x y => exact ⟨_, rfl, .of_setFlagged x _ fun _ => of_decide_eq_false⟩
  | ldI nnn => exact ⟨_, rfl, .index _ rfl⟩
  | addI x => exact ⟨_, rfl, .index _ rfl⟩
  | ldF x => exact ⟨_, rfl, .index _ rfl⟩
  | jpV0 nnn => exact ⟨_, rfl, .jump _ rfl (.inr (.inr (toNat_jpV0_le _ _)))⟩
  | rnd x kk =>
    exact ⟨_, rfl, .random _ fun r hr => s.getV_setV_ne (x := x) _ (of_decide_eq_false hr)⟩
  | draw x y n =>
    rw [exec_draw]
    obtain ⟨-, e⟩ | ⟨-, -, e⟩ := withAccess_cases s.base n.val
      (fun t => { t with fb := (s.drawn x y n).1 }.setV vf (flagByte (s.drawn x y n).2)) s
    · exact ⟨_, e, .screen _ _ rfl fun r hr => s.getV_setV_ne (x := vf) _ (of_decide_eq_false hr)⟩
    · exact ⟨_, e, .fault _ rfl⟩
  | skp x =>
    rw [exec_skp]
    obtain ⟨_, e⟩ | ⟨-, e⟩ := skipByKey_cases x true s
    · exact ⟨_, e, .of_skipIf _ rfl⟩
    · exact ⟨_, e, .fault _ rfl⟩
  | sknp x =>
    rw [exec_sknp]
    obtain ⟨_, e⟩ | ⟨-, e⟩ := skipByKey_cases x false s
    · exact ⟨_, e, .of_skipIf _ rfl⟩
    · exact ⟨_, e, .fault _ rfl⟩
  | ldVxK x => exact ⟨_, rfl, .keyWait⟩
  | ldDtVx x => exact ⟨_, rfl, .delay⟩
  | ldStVx x => exact ⟨_, rfl, .sound⟩
  | ldB x =>
    rw [exec_ldB]
    obtain ⟨ha, e⟩ | ⟨-, -, e⟩ := withAccess_cases s.base 3
      (fun t => { t with mem := Memory.writeBytes t.mem s.base (decimalDigits (s.getV x)) }) s
    · exact ⟨_, e, .memory _ _ rfl (by simpa [decimalDigits] using ha)⟩
    · exact ⟨_, e, .fault _ rfl⟩
  | store x =>
    rw [exec_store]
    obtain ⟨ha, e⟩ | ⟨-, -, e⟩ := withAccess_cases s.base (x.val + 1)
      (fun t => { t with mem := Memory.writeBytes t.mem s.base (s.lowV x) }) s
    · exact ⟨_, e, .memory _ _ rfl (by rw [length_lowV]; omega)⟩
    · exact ⟨_, e, .fault _ rfl⟩
  | load x =>
    rw [exec_load]
    obtain ⟨-, e⟩ | ⟨-, -, e⟩ := withAccess_cases s.base (x.val + 1)
      (fun t => t.setLowV x fun k => Memory.read s.mem (s.base + k)) s
    · exact ⟨_, e, .of_setLowV x _ fun _ => of_decide_eq_false⟩
    · exact ⟨_, e, .fault _ rfl⟩

theorem effect_of_exec {i : Instr} {s t : State} (h : exec i s = .next t) : Effect i s t := by
  obtain ⟨u, hu, e⟩ := exec_effect i s
  obtain rfl := Host.Outcome.next.inj (hu.symm.trans h)
  exact e

/-! ### What an instruction leaves unchanged (10_state.md R20 to R35, decision D16) -/

section Frame

variable {i : Instr} {s t : State}

theorem Effect.getElem_v_eq (e : Effect i s t) {r : Index} (hr : writesV i r = false) :
    t.v[r] = s.v[r] := by
  cases e with
  | registers v hv => exact hv r hr
  | random v hv => exact hv r hr
  | screen fb v hi hv => exact hv r hr
  | _ => rfl

theorem Effect.pc_eq (e : Effect i s t) (h : writesPc i = false) : t.pc = s.pc := by
  cases e with
  | jump pc hi => exact absurd hi (by simp [h])
  | push => cases h
  | pop => cases h
  | _ => rfl

theorem Effect.stack_eq (e : Effect i s t) (h : writesStack i = false) :
    t.sp = s.sp ∧ t.stack = s.stack := by
  cases e with
  | push => cases h
  | pop => cases h
  | _ => exact ⟨rfl, rfl⟩

theorem Effect.i_eq (e : Effect i s t) (h : writesI i = false) : t.i = s.i := by
  cases e with
  | index w hi => exact absurd hi (by simp [h])
  | _ => rfl

theorem Effect.mem_eq (e : Effect i s t) (h : writesMem i = false) : t.mem = s.mem := by
  cases e with
  | memory a bs hi => exact absurd hi (by simp [h])
  | _ => rfl

theorem Effect.fb_eq (e : Effect i s t) (h : writesFb i = false) : t.fb = s.fb := by
  cases e with
  | screen fb v hi => exact absurd hi (by simp [h])
  | _ => rfl

theorem Effect.fault_eq (e : Effect i s t) (h : mayFault i = false) : t.fault = s.fault := by
  cases e with
  | fault f hi => exact absurd hi (by simp [h])
  | _ => rfl

theorem Effect.dt_eq_or (e : Effect i s t) : t.dt = s.dt ∨ ∃ x, i = .ldDtVx x ∧ t.dt = s.v[x] := by
  cases e with
  | delay => exact .inr ⟨_, rfl, rfl⟩
  | _ => exact .inl rfl

theorem Effect.st_eq_or (e : Effect i s t) : t.st = s.st ∨ ∃ x, i = .ldStVx x ∧ t.st = s.v[x] := by
  cases e with
  | sound => exact .inr ⟨_, rfl, rfl⟩
  | _ => exact .inl rfl

theorem Effect.dt_eq (e : Effect i s t) (h : ∀ x, i ≠ .ldDtVx x) : t.dt = s.dt :=
  e.dt_eq_or.resolve_right fun ⟨x, hx, _⟩ => h x hx

theorem Effect.st_eq (e : Effect i s t) (h : ∀ x, i ≠ .ldStVx x) : t.st = s.st :=
  e.st_eq_or.resolve_right fun ⟨x, hx, _⟩ => h x hx

theorem Effect.wait_eq (e : Effect i s t) (h : ∀ x, i ≠ .ldVxK x) :
    t.wait = s.wait ∧ t.waitx = s.waitx := by
  cases e with
  | keyWait => exact absurd rfl (h _)
  | _ => exact ⟨rfl, rfl⟩

theorem Effect.draws_eq (e : Effect i s t) (h : ∀ x kk, i ≠ .rnd x kk) : t.draws = s.draws := by
  cases e with
  | random => exact absurd rfl (h _ _)
  | _ => rfl

/-- No instruction writes the keypad or the model's own schedule and launch mark. -/
theorem Effect.host_eq (e : Effect i s t) :
    t.keys = s.keys ∧ t.schedule = s.schedule ∧ t.launching = s.launching := by
  cases e <;> exact ⟨rfl, rfl, rfl⟩

end Frame

/-- Settles O50: for each piece of state, the effects that write it are those of its writers. -/
theorem instructionsWriteOnlyTheirState : Obligations.InstructionsWriteOnlyTheirState := by
  intro i s t h
  have e := effect_of_exec h
  exact ⟨e.pc_eq, e.stack_eq, e.i_eq, e.mem_eq, e.fb_eq, e.fault_eq, e.dt_eq, e.st_eq, e.wait_eq,
    e.draws_eq, e.host_eq⟩

/-- Settles O51: three effects write registers, and each says which. -/
theorem registersWrittenOnlyByDestination : Obligations.RegistersWrittenOnlyByDestination :=
  fun _ _ _ _ h hr => (effect_of_exec h).getElem_v_eq hr

/-! ### What a transaction can do -/

/-- What a transaction of the host can make of a state, one constructor for each way it can end
(60_exceptions.md R183). -/
inductive Transition (s : State) : Transaction → State → Prop where
  | reset : Transition s .reset s.resetAll
  | load (image : List Byte) (hfits : image.length ≤ 3584) :
      Transition s (.loadProgram image) { s with mem := Memory.writeBytes s.mem 0x200 image }
  | tick : Transition s .stepTimer s.stepTimer
  | key (k : Index) (b : Bool) :
      Transition s (.keySet k b) { s with keys := s.keys.set k.val b k.isLt }
  | keyEndsWait (k : Index) (b : Bool) (v : Vector Byte 16) :
      Transition s (.keySet k b)
        { s with keys := s.keys.set k.val b k.isLt, v := v, wait := false }
  /-- A read, or a StepInstruction of a core that awaits a key. -/
  | nothing (x : Transaction) : Transition s x s
  /-- The fetch fault, with PC left standing (40_step_cycle.md R91). -/
  | fetchFault (f : FaultRecord) (hwait : s.wait = false) :
      Transition s .stepInstruction { s.begun with fault := some f }
  | invalidOpcode (f : FaultRecord) (hwait : s.wait = false) (hfetch : s.pc.toNat + 2 ≤ 4096) :
      Transition s .stepInstruction { s.fetched with fault := some f }
  | executed {i : Instr} {t : State} (hfault : s.fault = none) (hwait : s.wait = false)
      (hfetch : s.pc.toNat + 2 ≤ 4096) (hdecode : decodeWord s.opcode = .ok i)
      (he : Effect i s.fetched t) : Transition s .stepInstruction t

theorem cycle_transition {s t : State} (hf : s.fault = none) (hw : s.wait = false)
    (h : cycle s = .next t) : Transition s .stepInstruction t := by
  by_cases hp : s.pc.toNat + 2 ≤ 4096
  · rw [cycle_of_fetch hp] at h
    cases hd : decodeWord s.opcode with
    | ok i => exact .executed hf hw hp hd (effect_of_exec ((execWord_of_decode _ hd).symm.trans h))
    | error e =>
      obtain rfl := Host.Outcome.next.inj ((execWord_of_error _ hd).symm.trans h)
      exact .invalidOpcode _ hw hp
  · obtain rfl := Host.Outcome.next.inj ((cycle_of_no_fetch (by omega)).symm.trans h)
    exact .fetchFault _ hw

theorem stepInstruction_transition {s t : State} (h : stepInstruction s = .next t) :
    Transition s .stepInstruction t := by
  cases hf : s.fault with
  | some f => cases (stepInstruction_halted hf).symm.trans h
  | none =>
    cases hw : s.wait with
    | true =>
      obtain rfl := Host.Outcome.next.inj ((stepInstruction_waiting hf hw).symm.trans h)
      exact .nothing _
    | false => exact cycle_transition hf hw ((stepInstruction_running hf hw).symm.trans h)

theorem transact_transition {x : Transaction} {s t : State} (h : transact x s = .next t) :
    Transition s x t := by
  cases x with
  | reset => obtain rfl := Host.Outcome.next.inj h; exact .reset
  | loadProgram image => obtain ⟨hfits, rfl⟩ := loadProgram_next h; exact .load image hfits
  | stepInstruction => exact stepInstruction_transition h
  | stepTimer => obtain rfl := Host.Outcome.next.inj h; exact .tick
  | keySet k b =>
    obtain rfl := Host.Outcome.next.inj h
    obtain ⟨-, e⟩ | ⟨-, e⟩ := keySet_cases s k b
    · rw [e]; exact .keyEndsWait k b _
    · rw [e]; exact .key k b
  | readFramebuffer => obtain rfl := Host.Outcome.next.inj h; exact .nothing _
  | readSound => obtain rfl := Host.Outcome.next.inj h; exact .nothing _
  | readStatus => obtain rfl := Host.Outcome.next.inj h; exact .nothing _

/-- A step is the transition of one transaction, the schedule's head or else a StepInstruction, from the
state without it (log 2). -/
theorem step_transition {s t : State} (h : step s = .next t) :
    ∃ x rest, (x = .stepInstruction ∨ s.schedule = x :: rest) ∧
      Transition { s with schedule := rest } x t := by
  cases hs : s.schedule with
  | nil =>
    refine ⟨.stepInstruction, s.schedule, .inl rfl, ?_⟩
    exact stepInstruction_transition ((step_of_no_schedule hs).symm.trans h)
  | cons x rest => exact ⟨x, rest, .inr rfl, transact_transition ((step_of_schedule hs).symm.trans h)⟩

/-! ### The invariant (10_state.md R41) -/

/-- Settles O44: PC is 0x200, and the reset state has no return address, no fault and no memory cell. -/
theorem resetMeetsInvariant : Obligations.ResetMeetsInvariant where
  memory := Memory.wf_reset
  pc := by decide
  returns _ hk := absurd hk (Nat.not_lt_zero _)
  modes h := absurd rfl h

/-- A push of an address after a fetch keeps the live entries in range. -/
theorem Inv.returns_push {s : State} (hs : Inv s) (hlow : 2 ≤ s.pc.toNat) (hhigh : s.pc.toNat ≤ 0x1000)
    (hsp : s.sp.val < 16) (k : Fin 16) (hk : k.val < s.sp.val + 1) :
    2 ≤ (s.stack.set s.sp.val s.pc hsp)[k].toNat ∧
      (s.stack.set s.sp.val s.pc hsp)[k].toNat ≤ 0x1000 := by
  rw [Fin.getElem_fin, Vector.getElem_set]
  split
  · exact ⟨hlow, hhigh⟩
  · exact hs.returns k (by omega)

/-- Every effect keeps the invariant, from a running core whose PC is past a fetched word. -/
theorem Effect.inv {i : Instr} {s t : State} (e : Effect i s t) (hs : Inv s) (hlow : 2 ≤ s.pc.toNat)
    (hhigh : s.pc.toNat ≤ 0x1000) (hfault : s.fault = none) (hwait : s.wait = false) : Inv t := by
  cases e with
  | fault f => exact { hs with modes := fun _ => hwait }
  | jump pc _ hpc =>
    refine { hs with pc := ?_ }
    obtain rfl | rfl | hpc := hpc
    · exact hs.pc
    · show (s.pc + 2).toNat ≤ 0x10FE
      rw [toNat_add_two]; omega
    · exact hpc
  | @push nnn _ hsp =>
    have htarget : (zextAddr nnn).toNat ≤ 0x10FE := by rw [toNat_zextAddr]; omega
    exact { hs with pc := htarget, returns := hs.returns_push hlow hhigh hsp }
  | pop hsp =>
    have htop := hs.returns ⟨s.sp.val - 1, by omega⟩ (by show s.sp.val - 1 < _; omega)
    exact { hs with
      pc := htop.2.trans (by decide)
      returns := fun k hk => hs.returns k (hk.trans_le (Nat.sub_le _ _)) }
  | memory a bs _ ha => exact { hs with memory := Memory.wf_writeBytes hs.memory (.inr ha) }
  | keyWait => exact { hs with modes := fun h => absurd hfault h }
  | _ => exact { hs with }

theorem toNat_pc_fetched {s : State} (h : s.pc.toNat + 2 ≤ 4096) :
    s.fetched.pc.toNat = s.pc.toNat + 2 := by
  rw [State.fetched_pc, toNat_add_two]; omega

theorem Inv.fetched {s : State} (hs : Inv s) (h : s.pc.toNat + 2 ≤ 4096) : Inv s.fetched :=
  { hs with pc := by rw [toNat_pc_fetched h]; omega }

theorem Transition.inv {x : Transaction} {s t : State} (h : Transition s x t) (hs : Inv s) : Inv t := by
  cases h with
  | reset => exact { resetMeetsInvariant with }
  | load image hfits => exact { hs with memory := Memory.wf_writeBytes hs.memory (.inr (by omega)) }
  | keyEndsWait => exact { hs with modes := fun _ => rfl }
  | fetchFault f hwait => exact { hs with modes := fun _ => hwait }
  | invalidOpcode f hwait hfetch => exact { hs.fetched hfetch with modes := fun _ => hwait }
  | executed hfault hwait hfetch _ he =>
    have hpc := toNat_pc_fetched hfetch
    exact he.inv (hs.fetched hfetch) (by omega) (by omega) hfault hwait
  | _ => exact { hs with }

/-- Settles O45: a step is one transition, and every transition keeps the invariant. -/
theorem stepKeepsInvariant : Obligations.StepKeepsInvariant := by
  intro s s' hs h
  obtain ⟨x, rest, -, ht⟩ := step_transition h
  exact ht.inv { hs with }

/-- Settles O46, by induction on the transactions that lead from reset. -/
theorem reachableStatesMeetInvariant : Obligations.ReachableStatesMeetInvariant := by
  intro s h
  induction h with
  | reset => exact resetMeetsInvariant
  | transact x _ ht ih => exact (transact_transition ht).inv ih

/-! ### Who writes the timers, the keypad and the framebuffer -/

theorem Transition.dt_le_or {x : Transaction} {s t : State} (h : Transition s x t) :
    t.dt.toNat ≤ s.dt.toNat ∨ ∃ r, decodeWord s.opcode = .ok (.ldDtVx r) ∧ t.dt = s.v[r] := by
  cases h with
  | reset => exact .inl (Nat.zero_le _)
  | tick => exact .inl (by rw [State.stepTimer_dt, toNat_countdown]; omega)
  | executed _ _ _ hdecode he =>
    obtain e | ⟨r, rfl, e⟩ := he.dt_eq_or
    · exact .inl (congrArg BitVec.toNat e).le
    · exact .inr ⟨r, hdecode, e⟩
  | _ => exact .inl le_rfl

theorem Transition.st_le_or {x : Transaction} {s t : State} (h : Transition s x t) :
    t.st.toNat ≤ s.st.toNat ∨ ∃ r, decodeWord s.opcode = .ok (.ldStVx r) ∧ t.st = s.v[r] := by
  cases h with
  | reset => exact .inl (Nat.zero_le _)
  | tick => exact .inl (by rw [State.stepTimer_st, toNat_countdown]; omega)
  | executed _ _ _ hdecode he =>
    obtain e | ⟨r, rfl, e⟩ := he.st_eq_or
    · exact .inl (congrArg BitVec.toNat e).le
    · exact .inr ⟨r, hdecode, e⟩
  | _ => exact .inl le_rfl

/-- Settles O52: of the transitions only an executed LD_DT_VX or LD_ST_VX does not lower or keep a timer. -/
theorem timersRiseOnlyByInstruction : Obligations.TimersRiseOnlyByInstruction := by
  intro s s' h
  obtain ⟨x, rest, -, ht⟩ := step_transition h
  exact ⟨fun hrise => ht.dt_le_or.resolve_left hrise.not_ge,
    fun hrise => ht.st_le_or.resolve_left hrise.not_ge⟩

theorem Transition.keys_eq_or {x : Transaction} {s t : State} (h : Transition s x t) :
    t.keys = s.keys ∨ x = .reset ∨ ∃ k b, x = .keySet k b := by
  cases h with
  | reset => exact .inr (.inl rfl)
  | key k b => exact .inr (.inr ⟨k, b, rfl⟩)
  | keyEndsWait k b => exact .inr (.inr ⟨k, b, rfl⟩)
  | executed _ _ _ _ he => exact .inl he.host_eq.1
  | _ => exact .inl rfl

/-- Settles O53: of the transitions only Reset and KeySet write the keypad, and both come from the schedule. -/
theorem keysWrittenOnlyByHost : Obligations.KeysWrittenOnlyByHost := by
  intro s s' h hkeys
  obtain ⟨x, rest, hx, ht⟩ := step_transition h
  obtain rfl | ⟨k, b, rfl⟩ := ht.keys_eq_or.resolve_left hkeys
  · exact ⟨rest, .inl (hx.resolve_left nofun)⟩
  · exact ⟨rest, .inr ⟨k, b, hx.resolve_left nofun⟩⟩

theorem writesFb_iff {i : Instr} : writesFb i = true ↔ i = .cls ∨ ∃ x y n, i = .draw x y n := by
  cases i <;> simp [writesFb]

theorem Transition.fb_eq_or {x : Transaction} {s t : State} (h : Transition s x t) :
    t.fb = s.fb ∨ x = .reset ∨ ∃ i, writesFb i = true ∧ decodeWord s.opcode = .ok i := by
  cases h with
  | reset => exact .inr (.inl rfl)
  | @executed i _ _ _ _ hdecode he =>
    cases hi : writesFb i with
    | true => exact .inr (.inr ⟨i, hi, hdecode⟩)
    | false => exact .inl (he.fb_eq hi)
  | _ => exact .inl rfl

/-- Settles O54: of the transitions only Reset and an executed CLS or DRAW write the framebuffer. -/
theorem screenWrittenOnlyByClearAndDraw : Obligations.ScreenWrittenOnlyByClearAndDraw := by
  intro s s' h hfb
  obtain ⟨x, rest, hx, ht⟩ := step_transition h
  obtain rfl | ⟨i, hi, hdecode⟩ := ht.fb_eq_or.resolve_left hfb
  · exact .inr (.inr ⟨rest, hx.resolve_left nofun⟩)
  · obtain rfl | ⟨x, y, n, rfl⟩ := writesFb_iff.mp hi
    · exact .inl hdecode
    · exact .inr (.inl ⟨x, y, n, hdecode⟩)

end Sys2Proof.Machine

/-! ## The family 20_memory.md: an access out of range, and a STORE over the next instruction -/

namespace Sys2Proof.Machine

/-! ### Both outcomes of a guarded access (20_memory.md R55) -/

theorem withAccess_of_fits {addr n : Nat} (act : State → State) (s : State)
    (h : n = 0 ∨ addr + n ≤ 4096) : withAccess addr n act s = .next (act s) := by
  obtain ⟨-, e⟩ | ⟨hn, hout, -⟩ := withAccess_cases addr n act s
  · exact e
  · omega

theorem withAccess_of_out {addr n : Nat} (act : State → State) (s : State) (hn : n ≠ 0)
    (h : 4096 < addr + n) :
    withAccess addr n act s =
      .next { s with fault := some ⟨.addressOutOfRange, badAddress addr⟩ } := by
  obtain ⟨hfits, -⟩ | ⟨-, -, e⟩ := withAccess_cases addr n act s
  · omega
  · exact e

/-- Settles O34: each of the four instructions is one guarded access from I on. -/
theorem outOfRangeAccessHalts : Obligations.OutOfRangeAccessHalts := by
  rintro s _ rfl
  refine ⟨fun x h => ?ldB, fun x h => ?store, fun x h => ?load, fun x y n hn h => ?draw⟩
  case ldB => rw [exec_ldB]; exact withAccess_of_out _ s (by decide) h
  case store => rw [exec_store]; exact withAccess_of_out _ s x.val.succ_ne_zero h
  case load => rw [exec_load]; exact withAccess_of_out _ s x.val.succ_ne_zero h
  case draw => rw [exec_draw]; exact withAccess_of_out _ s (Fin.val_ne_of_ne hn) h

/-! ### What a STORE leaves (43_index_memory.md R144) -/

/-- The state that a STORE of V0 to Vx in range leaves: `exec_store_of_fits`. -/
def State.stored (s : State) (x : Index) : State :=
  { s with mem := Memory.writeBytes s.mem s.base (s.lowV x) }

theorem exec_store_of_fits {x : Index} {s : State} (h : s.base + x.val + 1 ≤ 4096) :
    exec (.store x) s = .next (s.stored x) := by
  rw [exec_store]; exact withAccess_of_fits _ s (.inr h)

theorem read_stored {x k : Index} {s : State} (hmem : Memory.wf s.mem = true)
    (h : s.base + x.val + 1 ≤ 4096) (hk : k.val ≤ x.val) :
    Memory.read (s.stored x).mem (s.base + k.val) = s.getV k := by
  have hlen : k.val < (s.lowV x).length := by rw [length_lowV]; omega
  calc Memory.read (s.stored x).mem (s.base + k.val)
    _ = (s.lowV x)[k.val] := Memory.read_writeBytes_inside hmem (by rw [length_lowV]; omega) hlen
    _ = s.getV k := getElem_lowV s x k.val hlen

/-! ### A step of a ready core -/

theorem State.Ready.step_eq {s : State} (h : s.Ready) : step s = execWord s.opcode s.fetched := by
  rw [step_of_no_schedule h.schedule, stepInstruction_running h.fault h.wait, cycle_of_fetch h.fetch]

/-- After the launch a fetch only moves PC. -/
theorem State.fetched_of_launched {s : State} (h : s.launching = false) :
    s.fetched = { s with pc := s.pc + 2 } := by
  show { s with launching := false, pc := s.pc + 2 } = _
  rw [← h]

/-- Settles O36: the STORE leaves a ready core, whose opcode is read from the bytes just stored. -/
theorem storeSeenByNextFetch : Obligations.StoreSeenByNextFetch := by
  intro x k h s hs hmem hdecode hk hfits hnext
  have hpc : (s.fetched.stored x).pc.toNat = s.base + k.val := (toNat_pc_fetched hs.fetch).trans hnext
  have hready : (s.fetched.stored x).Ready := ⟨hs.schedule, hs.fault, hs.wait, by rw [hpc]; omega⟩
  have hlaunched : (s.fetched.stored x).launching = false := rfl
  have hhi : Memory.read (s.fetched.stored x).mem (s.base + k.val) = s.v[k] :=
    read_stored (s := s.fetched) hmem hfits (by omega)
  have hlo : Memory.read (s.fetched.stored x).mem (s.base + k.val + 1) = s.v[k.val + 1] :=
    read_stored (k := ⟨k.val + 1, h⟩) (s := s.fetched) hmem hfits hk
  refine ⟨s.fetched.stored x, ?_, ?_⟩
  · rw [hs.step_eq, execWord_of_decode _ hdecode]
    exact exec_store_of_fits hfits
  · rw [hready.step_eq, State.fetched_of_launched hlaunched, State.opcode, Memory.readWord, hpc, hhi, hlo,
      wordOfBytes]

end Sys2Proof.Machine

/-! ## The family 30_encoding.md: the decoder and the encoder are inverse, and agree with the opcode table -/

namespace Sys2Proof.Laws

/-! ### The word of each format, from its digits (30_encoding.md R71, R72) -/

theorem toNat_nnnOf (b c d : Nibble) :
    (nnnOf b c d).toNat = b.toNat * 256 + c.toNat * 16 + d.toNat := by
  simp only [nnnOf, BitVec.toNat_ofNat]; omega

theorem toNat_kkOf (c d : Nibble) : (kkOf c d).toNat = c.toNat * 16 + d.toNat := by
  simp only [kkOf, BitVec.toNat_ofNat]; omega

theorem val_indexOf (d : Nibble) : (indexOf d).val = d.toNat := rfl

theorem wordNNN_nnnOf (m b c d : Nibble) : wordNNN m (nnnOf b c d) = ofDigits m b c d := by
  apply BitVec.eq_of_toNat_eq
  rw [toNat_wordNNN, toNat_nnnOf, toNat_ofDigits]; omega

theorem wordXKK_kkOf (m b c d : Nibble) : wordXKK m (indexOf b) (kkOf c d) = ofDigits m b c d := by
  apply BitVec.eq_of_toNat_eq
  rw [toNat_wordXKK, toNat_kkOf, toNat_ofDigits, val_indexOf]; omega

theorem wordXY_indexOf (m b c d : Nibble) : wordXY m (indexOf b) (indexOf c) d = ofDigits m b c d := by
  rw [wordXY, digitOf_indexOf, digitOf_indexOf]

theorem wordXYN_indexOf (m b c d : Nibble) :
    wordXY m (indexOf b) (indexOf c) (digitOf (indexOf d)) = ofDigits m b c d := by
  rw [digitOf_indexOf, wordXY_indexOf]

theorem exists_indexOf_eq (x : Index) : ∃ b, indexOf b = x := ⟨digitOf x, indexOf_digitOf x⟩

theorem exists_kkOf_eq (kk : Byte) : ∃ c d, kkOf c d = kk := by
  refine ⟨BitVec.ofNat 4 (kk.toNat / 16), BitVec.ofNat 4 kk.toNat, BitVec.eq_of_toNat_eq ?_⟩
  rw [toNat_kkOf, BitVec.toNat_ofNat, BitVec.toNat_ofNat]; omega

theorem exists_nnnOf_eq (nnn : Addr12) : ∃ b c d, nnnOf b c d = nnn := by
  refine ⟨BitVec.ofNat 4 (nnn.toNat / 256), BitVec.ofNat 4 (nnn.toNat / 16), BitVec.ofNat 4 nnn.toNat,
    BitVec.eq_of_toNat_eq ?_⟩
  rw [toNat_nnnOf, BitVec.toNat_ofNat, BitVec.toNat_ofNat, BitVec.toNat_ofNat]; omega

/-! ### Decoding a word of each format (30_encoding.md R74 to R78) -/

theorem decodeWord_eq_ok_iff {w : Word} {i : Instr} :
    decodeWord w = .ok i ↔ decodeDigits (digit1 w) (digit2 w) (digit3 w) (digit4 w) = some i := by
  cases h : decodeDigits (digit1 w) (digit2 w) (digit3 w) (digit4 w) <;> simp [decodeWord, h]

theorem decodeWord_eq_error {w : Word} {e : DecodeError} (h : decodeWord w = .error e) :
    e = .invalidOpcode w := by
  unfold decodeWord at h
  split at h <;> cases h
  rfl

theorem decodeWord_ofDigits {a b c d : Nibble} {i : Instr} (h : decodeDigits a b c d = some i) :
    decodeWord (ofDigits a b c d) = .ok i := by
  simpa [decodeWord_eq_ok_iff] using h

theorem decodeWord_wordNNN {m : Nibble} (f : Addr12 → Instr)
    (h : ∀ b c d, decodeDigits m b c d = some (f (nnnOf b c d))) (nnn : Addr12) :
    decodeWord (wordNNN m nnn) = .ok (f nnn) := by
  obtain ⟨b, c, d, rfl⟩ := exists_nnnOf_eq nnn
  rw [wordNNN_nnnOf]
  exact decodeWord_ofDigits (h b c d)

/-- The formats XKK and X: a decoder `f` of the low byte, which may refuse it. -/
theorem decodeWord_wordXKK {m : Nibble} (f : Index → Byte → Option Instr)
    (h : ∀ b c d, decodeDigits m b c d = f (indexOf b) (kkOf c d)) {x : Index} {kk : Byte} {i : Instr}
    (hi : f x kk = some i) : decodeWord (wordXKK m x kk) = .ok i := by
  obtain ⟨b, rfl⟩ := exists_indexOf_eq x
  obtain ⟨c, d, rfl⟩ := exists_kkOf_eq kk
  rw [wordXKK_kkOf]
  exact decodeWord_ofDigits ((h b c d).trans hi)

theorem decodeWord_majorE {x : Index} {kk : Byte} {i : Instr} (h : decodeMajorE x kk = some i) :
    decodeWord (wordXKK 0xE#4 x kk) = .ok i :=
  decodeWord_wordXKK decodeMajorE (fun _ _ _ => rfl) h

theorem decodeWord_majorF {x : Index} {kk : Byte} {i : Instr} (h : decodeMajorF x kk = some i) :
    decodeWord (wordXKK 0xF#4 x kk) = .ok i :=
  decodeWord_wordXKK decodeMajorF (fun _ _ _ => rfl) h

/-- The format XY, with the last digit fixed. -/
theorem decodeWord_wordXY {m d : Nibble} (f : Index → Index → Instr)
    (h : ∀ b c, decodeDigits m b c d = some (f (indexOf b) (indexOf c))) (x y : Index) :
    decodeWord (wordXY m x y d) = .ok (f x y) := by
  obtain ⟨b, rfl⟩ := exists_indexOf_eq x
  obtain ⟨c, rfl⟩ := exists_indexOf_eq y
  rw [wordXY_indexOf]
  exact decodeWord_ofDigits (h b c)

theorem decodeWord_wordXYN {m : Nibble} (f : Index → Index → Index → Instr)
    (h : ∀ b c d, decodeDigits m b c d = some (f (indexOf b) (indexOf c) (indexOf d))) (x y n : Index) :
    decodeWord (wordXY m x y (digitOf n)) = .ok (f x y n) := by
  obtain ⟨d, rfl⟩ := exists_indexOf_eq n
  rw [digitOf_indexOf]
  exact decodeWord_wordXY (f · · (indexOf d)) (fun b c => h b c d) x y

theorem decodeWord_encode (i : Instr) : decodeWord (encode i) = .ok i := by
  cases i with
  | nop => rfl
  | cls => rfl
  | ret => rfl
  | jp nnn => exact decodeWord_wordNNN .jp (fun _ _ _ => rfl) nnn
  | call nnn => exact decodeWord_wordNNN .call (fun _ _ _ => rfl) nnn
  | seImm x kk => exact decodeWord_wordXKK (some <| .seImm · ·) (fun _ _ _ => rfl) rfl
  | sneImm x kk => exact decodeWord_wordXKK (some <| .sneImm · ·) (fun _ _ _ => rfl) rfl
  | seReg x y => exact decodeWord_wordXY .seReg (fun _ _ => rfl) x y
  | ldImm x kk => exact decodeWord_wordXKK (some <| .ldImm · ·) (fun _ _ _ => rfl) rfl
  | addImm x kk => exact decodeWord_wordXKK (some <| .addImm · ·) (fun _ _ _ => rfl) rfl
  | ldReg x y => exact decodeWord_wordXY .ldReg (fun _ _ => rfl) x y
  | orReg x y => exact decodeWord_wordXY .orReg (fun _ _ => rfl) x y
  | andReg x y => exact decodeWord_wordXY .andReg (fun _ _ => rfl) x y
  | xorReg x y => exact decodeWord_wordXY .xorReg (fun _ _ => rfl) x y
  | addReg x y => exact decodeWord_wordXY .addReg (fun _ _ => rfl) x y
  | sub x y => exact decodeWord_wordXY .sub (fun _ _ => rfl) x y
  | shr x y => exact decodeWord_wordXY .shr (fun _ _ => rfl) x y
  | subn x y => exact decodeWord_wordXY .subn (fun _ _ => rfl) x y
  | shl x y => exact decodeWord_wordXY .shl (fun _ _ => rfl) x y
  | sneReg x y => exact decodeWord_wordXY .sneReg (fun _ _ => rfl) x y
  | ldI nnn => exact decodeWord_wordNNN .ldI (fun _ _ _ => rfl) nnn
  | jpV0 nnn => exact decodeWord_wordNNN .jpV0 (fun _ _ _ => rfl) nnn
  | rnd x kk => exact decodeWord_wordXKK (some <| .rnd · ·) (fun _ _ _ => rfl) rfl
  | draw x y n => exact decodeWord_wordXYN .draw (fun _ _ _ => rfl) x y n
  | skp x => exact decodeWord_majorE rfl
  | sknp x => exact decodeWord_majorE rfl
  | ldVxDt x => exact decodeWord_majorF rfl
  | ldVxK x => exact decodeWord_majorF rfl
  | ldDtVx x => exact decodeWord_majorF rfl
  | ldStVx x => exact decodeWord_majorF rfl
  | addI x => exact decodeWord_majorF rfl
  | ldF x => exact decodeWord_majorF rfl
  | ldB x => exact decodeWord_majorF rfl
  | store x => exact decodeWord_majorF rfl
  | load x => exact decodeWord_majorF rfl

/-- Settles O1: the two bytes make up the instruction's word again, and that word decodes to it. -/
theorem decodeOfEncode : Obligations.DecodeOfEncode := by
  intro i rest _
  show (decodeWord (wordOfBytes (hiByte (encode i)) (loByte (encode i)))).map _ = _
  rw [wordOfBytes_hiByte_loByte, decodeWord_encode]
  rfl

/-! ### The word of what each dispatch decodes (30_encoding.md R80, R81)

In each branch the selector is the literal that the encoder writes there. -/

theorem encode_of_decodeMajor0 {nnn : Addr12} {i : Instr} (h : decodeMajor0 nnn = some i) :
    encode i = wordNNN 0x0#4 nnn := by
  unfold decodeMajor0 at h
  split_ifs at h <;> cases h <;> subst nnn <;> rfl

theorem encode_of_decodeMajor8 {x y : Index} {d : Nibble} {i : Instr}
    (h : decodeMajor8 x y d = some i) : encode i = wordXY 0x8#4 x y d := by
  unfold decodeMajor8 at h
  split_ifs at h <;> cases h <;> subst d <;> rfl

theorem encode_of_decodeMajorE {x : Index} {kk : Byte} {i : Instr} (h : decodeMajorE x kk = some i) :
    encode i = wordXKK 0xE#4 x kk := by
  unfold decodeMajorE at h
  split_ifs at h <;> cases h <;> subst kk <;> rfl

theorem encode_of_decodeMajorF {x : Index} {kk : Byte} {i : Instr} (h : decodeMajorF x kk = some i) :
    encode i = wordXKK 0xF#4 x kk := by
  unfold decodeMajorF at h
  split_ifs at h <;> cases h <;> subst kk <;> rfl

theorem encode_eq_of_some {i j : Instr} {w : Word} (h : some j = some i) (hj : encode j = w) :
    encode i = w :=
  Option.some.inj h ▸ hj

/-- The split follows the dispatch on digit1, from 0 to F. -/
theorem encode_of_decodeDigits {a b c d : Nibble} {i : Instr} (h : decodeDigits a b c d = some i) :
    encode i = ofDigits a b c d := by
  obtain ⟨a⟩ := a
  fin_cases a
  · exact (encode_of_decodeMajor0 h).trans (wordNNN_nnnOf ..)
  · exact encode_eq_of_some h (wordNNN_nnnOf ..)
  · exact encode_eq_of_some h (wordNNN_nnnOf ..)
  · exact encode_eq_of_some h (wordXKK_kkOf ..)
  · exact encode_eq_of_some h (wordXKK_kkOf ..)
  · obtain ⟨rfl, h⟩ := Option.ite_none_right_eq_some.mp h
    exact encode_eq_of_some h (wordXY_indexOf ..)
  · exact encode_eq_of_some h (wordXKK_kkOf ..)
  · exact encode_eq_of_some h (wordXKK_kkOf ..)
  · exact (encode_of_decodeMajor8 h).trans (wordXY_indexOf ..)
  · obtain ⟨rfl, h⟩ := Option.ite_none_right_eq_some.mp h
    exact encode_eq_of_some h (wordXY_indexOf ..)
  · exact encode_eq_of_some h (wordNNN_nnnOf ..)
  · exact encode_eq_of_some h (wordNNN_nnnOf ..)
  · exact encode_eq_of_some h (wordXKK_kkOf ..)
  · exact encode_eq_of_some h (wordXYN_indexOf ..)
  · exact (encode_of_decodeMajorE h).trans (wordXKK_kkOf ..)
  · exact (encode_of_decodeMajorF h).trans (wordXKK_kkOf ..)

theorem decodeWord_eq_ok_iff_encode {w : Word} {i : Instr} : decodeWord w = .ok i ↔ encode i = w := by
  constructor
  · intro h
    rw [encode_of_decodeDigits (decodeWord_eq_ok_iff.mp h), ofDigits_digits]
  · rintro rfl
    exact decodeWord_encode i

/-- Settles O2: the digits of a word make it up, and the decoder's instruction holds them all. -/
theorem encodeOfDecode : Obligations.EncodeOfDecode :=
  fun _ _ => decodeWord_eq_ok_iff_encode.mp

/-! ### The rows of the opcode table and the words that select them (30_encoding.md section 3)

Each mask keeps whole digits, so a word that selects a row has the row's digits where the mask is F, and it
decodes to what the dispatch makes of these and of the word's own digits elsewhere. -/

section Selects

variable {name : String} {mask w p : Word} {i : Instr}

theorem and_mask_of_selects (h : (Row.mk name mask p).selects w = true) : w &&& mask = p :=
  of_decide_eq_true h

theorem decodeWord_of_selects_F000 (h : (Row.mk name 0xF000#16 p).selects w = true)
    (hd : decodeDigits (digit1 p) (digit2 w) (digit3 w) (digit4 w) = some i) :
    decodeWord w = .ok i := by
  have h1 : digit1 p = digit1 w := by
    apply BitVec.eq_of_toNat_eq
    simp only [← and_mask_of_selects h, digit1, BitVec.toNat_ofNat, toNat_and_F000]; omega
  rwa [decodeWord_eq_ok_iff, ← h1]

theorem decodeWord_of_selects_F00F (h : (Row.mk name 0xF00F#16 p).selects w = true)
    (hd : decodeDigits (digit1 p) (digit2 w) (digit3 w) (digit4 p) = some i) :
    decodeWord w = .ok i := by
  have h1 : digit1 p = digit1 w := by
    apply BitVec.eq_of_toNat_eq
    simp only [← and_mask_of_selects h, digit1, BitVec.toNat_ofNat, toNat_and_F00F]; omega
  have h4 : digit4 p = digit4 w := by
    apply BitVec.eq_of_toNat_eq
    simp only [← and_mask_of_selects h, digit4, BitVec.toNat_ofNat, toNat_and_F00F]; omega
  rwa [decodeWord_eq_ok_iff, ← h1, ← h4]

theorem decodeWord_of_selects_F0FF (h : (Row.mk name 0xF0FF#16 p).selects w = true)
    (hd : decodeDigits (digit1 p) (digit2 w) (digit3 p) (digit4 p) = some i) :
    decodeWord w = .ok i := by
  have h1 : digit1 p = digit1 w := by
    apply BitVec.eq_of_toNat_eq
    simp only [← and_mask_of_selects h, digit1, BitVec.toNat_ofNat, toNat_and_F0FF]; omega
  have h3 : digit3 p = digit3 w := by
    apply BitVec.eq_of_toNat_eq
    simp only [← and_mask_of_selects h, digit3, BitVec.toNat_ofNat, toNat_and_F0FF]; omega
  have h4 : digit4 p = digit4 w := by
    apply BitVec.eq_of_toNat_eq
    simp only [← and_mask_of_selects h, digit4, BitVec.toNat_ofNat, toNat_and_F0FF]; omega
  rwa [decodeWord_eq_ok_iff, ← h1, ← h3, ← h4]

theorem decodeWord_of_selects_FFFF (h : (Row.mk name 0xFFFF#16 p).selects w = true)
    (hd : decodeWord p = .ok i) : decodeWord w = .ok i := by
  have hw : p = w := (and_mask_of_selects h).symm.trans BitVec.and_allOnes
  exact hw ▸ hd

end Selects

/-- A word that selects a row decodes to an instruction of that row. -/
theorem exists_decodeWord_of_selects (k : Instr) {w : Word} (h : k.row.selects w = true) :
    ∃ i, decodeWord w = .ok i ∧ i.row = k.row := by
  cases k with
  | nop => exact ⟨.nop, decodeWord_of_selects_FFFF h rfl, rfl⟩
  | cls => exact ⟨.cls, decodeWord_of_selects_FFFF h rfl, rfl⟩
  | ret => exact ⟨.ret, decodeWord_of_selects_FFFF h rfl, rfl⟩
  | jp => exact ⟨.jp _, decodeWord_of_selects_F000 h rfl, rfl⟩
  | call => exact ⟨.call _, decodeWord_of_selects_F000 h rfl, rfl⟩
  | seImm => exact ⟨.seImm _ _, decodeWord_of_selects_F000 h rfl, rfl⟩
  | sneImm => exact ⟨.sneImm _ _, decodeWord_of_selects_F000 h rfl, rfl⟩
  | seReg => exact ⟨.seReg _ _, decodeWord_of_selects_F00F h rfl, rfl⟩
  | ldImm => exact ⟨.ldImm _ _, decodeWord_of_selects_F000 h rfl, rfl⟩
  | addImm => exact ⟨.addImm _ _, decodeWord_of_selects_F000 h rfl, rfl⟩
  | ldReg => exact ⟨.ldReg _ _, decodeWord_of_selects_F00F h rfl, rfl⟩
  | orReg => exact ⟨.orReg _ _, decodeWord_of_selects_F00F h rfl, rfl⟩
  | andReg => exact ⟨.andReg _ _, decodeWord_of_selects_F00F h rfl, rfl⟩
  | xorReg => exact ⟨.xorReg _ _, decodeWord_of_selects_F00F h rfl, rfl⟩
  | addReg => exact ⟨.addReg _ _, decodeWord_of_selects_F00F h rfl, rfl⟩
  | sub => exact ⟨.sub _ _, decodeWord_of_selects_F00F h rfl, rfl⟩
  | shr => exact ⟨.shr _ _, decodeWord_of_selects_F00F h rfl, rfl⟩
  | subn => exact ⟨.subn _ _, decodeWord_of_selects_F00F h rfl, rfl⟩
  | shl => exact ⟨.shl _ _, decodeWord_of_selects_F00F h rfl, rfl⟩
  | sneReg => exact ⟨.sneReg _ _, decodeWord_of_selects_F00F h rfl, rfl⟩
  | ldI => exact ⟨.ldI _, decodeWord_of_selects_F000 h rfl, rfl⟩
  | jpV0 => exact ⟨.jpV0 _, decodeWord_of_selects_F000 h rfl, rfl⟩
  | rnd => exact ⟨.rnd _ _, decodeWord_of_selects_F000 h rfl, rfl⟩
  | draw => exact ⟨.draw _ _ _, decodeWord_of_selects_F000 h rfl, rfl⟩
  | skp => exact ⟨.skp _, decodeWord_of_selects_F0FF h rfl, rfl⟩
  | sknp => exact ⟨.sknp _, decodeWord_of_selects_F0FF h rfl, rfl⟩
  | ldVxDt => exact ⟨.ldVxDt _, decodeWord_of_selects_F0FF h rfl, rfl⟩
  | ldVxK => exact ⟨.ldVxK _, decodeWord_of_selects_F0FF h rfl, rfl⟩
  | ldDtVx => exact ⟨.ldDtVx _, decodeWord_of_selects_F0FF h rfl, rfl⟩
  | ldStVx => exact ⟨.ldStVx _, decodeWord_of_selects_F0FF h rfl, rfl⟩
  | addI => exact ⟨.addI _, decodeWord_of_selects_F0FF h rfl, rfl⟩
  | ldF => exact ⟨.ldF _, decodeWord_of_selects_F0FF h rfl, rfl⟩
  | ldB => exact ⟨.ldB _, decodeWord_of_selects_F0FF h rfl, rfl⟩
  | store => exact ⟨.store _, decodeWord_of_selects_F0FF h rfl, rfl⟩
  | load => exact ⟨.load _, decodeWord_of_selects_F0FF h rfl, rfl⟩

theorem row_selects_encode (i : Instr) : i.row.selects (encode i) = true := by
  cases i with
  | nop => exact RowOf.nop
  | cls => exact RowOf.cls
  | ret => exact RowOf.ret
  | jp nnn => exact RowOf.jp nnn
  | call nnn => exact RowOf.call nnn
  | seImm x kk => exact RowOf.seImm x kk
  | sneImm x kk => exact RowOf.sneImm x kk
  | seReg x y => exact RowOf.seReg x y
  | ldImm x kk => exact RowOf.ldImm x kk
  | addImm x kk => exact RowOf.addImm x kk
  | ldReg x y => exact RowOf.ldReg x y
  | orReg x y => exact RowOf.orReg x y
  | andReg x y => exact RowOf.andReg x y
  | xorReg x y => exact RowOf.xorReg x y
  | addReg x y => exact RowOf.addReg x y
  | sub x y => exact RowOf.sub x y
  | shr x y => exact RowOf.shr x y
  | subn x y => exact RowOf.subn x y
  | shl x y => exact RowOf.shl x y
  | sneReg x y => exact RowOf.sneReg x y
  | ldI nnn => exact RowOf.ldI nnn
  | jpV0 nnn => exact RowOf.jpV0 nnn
  | rnd x kk => exact RowOf.rnd x kk
  | draw x y n => exact RowOf.draw x y n
  | skp x => exact RowOf.skp x
  | sknp x => exact RowOf.sknp x
  | ldVxDt x => exact RowOf.ldVxDt x
  | ldVxK x => exact RowOf.ldVxK x
  | ldDtVx x => exact RowOf.ldDtVx x
  | ldStVx x => exact RowOf.ldStVx x
  | addI x => exact RowOf.addI x
  | ldF x => exact RowOf.ldF x
  | ldB x => exact RowOf.ldB x
  | store x => exact RowOf.store x
  | load x => exact RowOf.load x

/-- Every instruction has the row of one of the table's instructions, the one with its constructor. -/
theorem row_mem_opcodeTable (i : Instr) : i.row ∈ opcodeTable := by
  cases i <;> simp [opcodeTable, firstRowInstrs, lastRowInstrs, Instr.row]

theorem exists_decodeWord_of_mem_opcodeTable {r : Row} {w : Word} (hr : r ∈ opcodeTable)
    (h : r.selects w = true) : ∃ i, decodeWord w = .ok i ∧ i.row = r := by
  obtain ⟨k, -, rfl⟩ := List.mem_map.mp hr
  exact exists_decodeWord_of_selects k h

/-- Settles O3: a word that selects a row decodes to an instruction of that row, and it decodes to one
instruction only. -/
theorem decodeSelectsTheOneRow : Obligations.DecodeSelectsTheOneRow := by
  refine fun w => ⟨fun i hi => ⟨row_mem_opcodeTable i, fun r hr => ⟨fun h => ?_, ?_⟩⟩,
    fun e he => ⟨decodeWord_eq_error he, fun r hr => ?_⟩⟩
  · obtain ⟨j, hj, rfl⟩ := exists_decodeWord_of_mem_opcodeTable hr h
    obtain rfl := Except.ok.inj (hj.symm.trans hi)
    rfl
  · rintro rfl
    obtain rfl := decodeWord_eq_ok_iff_encode.mp hi
    exact row_selects_encode i
  · by_contra h
    obtain ⟨j, hj, -⟩ := exists_decodeWord_of_mem_opcodeTable hr (Bool.eq_true_of_not_eq_false h)
    cases hj.symm.trans he

/-! ### Words of the test vectors (95_test_vectors.md section 2.1) -/

/-- Settles O4, by running the decoder on each word. -/
theorem decodesSpecWords : Obligations.DecodesSpecWords := by
  unfold Obligations.DecodesSpecWords
  decide

end Sys2Proof.Laws

/-! ## The family 40_step_cycle.md: a core that awaits a key, and what a step of a running core does -/

namespace Sys2Proof.Machine

/-! ### A core that awaits a key (40_step_cycle.md R96) -/

theorem stepResult_waiting {s : State} (hf : s.fault = none) (hw : s.wait = true) :
    stepResult s = .waiting := by
  rw [stepResult, hf]; exact if_pos hw

/-- Only Reset and KeySet can end a wait: an instruction runs in no core that awaits a key. -/
theorem Transition.wait_or {x : Transaction} {s t : State} (h : Transition s x t) (hw : s.wait = true) :
    t.wait = true ∨ x = .reset ∨ ∃ k b, x = .keySet k b := by
  cases h with
  | reset => exact .inr (.inl rfl)
  | keyEndsWait k b => exact .inr (.inr ⟨k, b, rfl⟩)
  | fetchFault _ hwait => cases hwait.symm.trans hw
  | invalidOpcode _ hwait => cases hwait.symm.trans hw
  | executed _ hwait => cases hwait.symm.trans hw
  | _ => exact .inl hw

/-- A KeySet that ends a wait presses a key that was up (60_exceptions.md R187). -/
theorem press_of_keySet_ends_wait {s : State} {k : Index} {b : Bool} (hw : s.wait = true)
    (h : (s.keySet k b).wait = false) : b = true ∧ s.keys[k] = false := by
  obtain ⟨⟨hb, hk, -, -⟩, -⟩ | ⟨-, e⟩ := keySet_cases s k b
  · exact ⟨hb, hk⟩
  · rw [e] at h
    cases hw.symm.trans h

/-- Settles O8: of the transactions, only Reset and KeySet can end a wait, and KeySet does so only on a
press. -/
theorem awaitingCoreWaits : Obligations.AwaitingCoreWaits := by
  refine fun s hf hw => ⟨stepInstruction_waiting hf hw, stepResult_waiting hf hw, fun x t hx ht => ?_⟩
  obtain hwait | rfl | ⟨k, b, rfl⟩ := (transact_transition hx).wait_or hw
  · cases hwait.symm.trans ht
  · exact .inl rfl
  · obtain rfl := Host.Outcome.next.inj hx
    obtain ⟨rfl, hup⟩ := press_of_keySet_ends_wait hw ht
    exact .inr ⟨k, rfl, hup⟩

/-! ### A step of a running core (40_step_cycle.md R90 to R93) -/

theorem stepInstruction_of_decode {s : State} {i : Instr} (hf : s.fault = none) (hw : s.wait = false)
    (hfetch : s.pc.toNat + 2 ≤ 4096) (hdecode : decodeWord s.opcode = .ok i) :
    stepInstruction s = exec i s.fetched := by
  rw [stepInstruction_running hf hw, cycle_of_fetch hfetch, execWord_of_decode _ hdecode]

/-- Settles O5: with or without an entry of the schedule, the step is a StepInstruction, from the state
without that entry. -/
theorem stepRunsDecodedInstruction : Obligations.StepRunsDecodedInstruction := by
  refine fun s i hf hw hfetch hdecode => ⟨fun hs => ?_, fun rest hs => ?_⟩
  · rw [step_of_no_schedule hs]
    exact stepInstruction_of_decode hf hw hfetch hdecode
  · rw [step_of_schedule hs]
    exact stepInstruction_of_decode (s := { s with schedule := rest }) hf hw hfetch hdecode

/-- Settles O7: the cycle of a running core that cannot fetch is the fetch fault. -/
theorem fetchOutOfRangeHalts : Obligations.FetchOutOfRangeHalts := by
  intro s hs hf hw hout
  rw [step_of_no_schedule hs, stepInstruction_running hf hw, cycle_of_no_fetch hout, badAddress]

/-! ### NOP (40_step_cycle.md R95) -/

theorem exec_nop (s : State) : exec .nop s = .next s := rfl

/-- Settles O15: the word 0 is the encoding of NOP, and a step runs what the word at PC decodes to. -/
theorem nopOnlyAdvances : Obligations.NopOnlyAdvances := by
  have hdecode : decodeWord 0 = .ok .nop := Laws.decodeWord_encode .nop
  refine ⟨exec_nop, hdecode, fun s hs hhi hlo => ?_⟩
  have hword : decodeWord (BitVec.ofNat 16 ((Memory.read s.mem s.pc.toNat).toNat * 256 +
      (Memory.read s.mem (s.pc.toNat + 1)).toNat)) = .ok .nop := by
    rw [hhi, hlo]; exact hdecode
  rw [(stepRunsDecodedInstruction s .nop hs.fault hs.wait hs.fetch hword).1 hs.schedule, exec_nop]

end Sys2Proof.Machine

/-! ## The family 41_control_flow.md: jumps, calls, returns and the register skips -/

namespace Sys2Proof.Laws

/-! ### The words of the register skips (30_encoding.md R72, R79) -/

theorem ofNat_eq_wordXY (m d : Nibble) (x y : Index) :
    BitVec.ofNat 16 (m.toNat * 4096 + x.val * 256 + y.val * 16 + d.toNat) = wordXY m x y d := by
  rw [wordXY, ofDigits, toNat_digitOf, toNat_digitOf]

/-- A word whose digits the dispatch refuses decodes to nothing. -/
theorem decodeWord_wordXY_ne_ok {m d : Nibble} (h : ∀ b c, decodeDigits m b c d = none) (x y : Index)
    (i : Instr) : decodeWord (wordXY m x y d) ≠ .ok i := by
  intro hi
  rw [decodeWord_eq_ok_iff, wordXY] at hi
  simp only [digit1_ofDigits, digit2_ofDigits, digit3_ofDigits, digit4_ofDigits, h] at hi
  cases hi

end Sys2Proof.Laws

namespace Sys2Proof.Machine

/-! ### Both outcomes of CALL and of RET (41_control_flow.md R100, R102) -/

/-- The state that a CALL below depth 16 leaves: `exec_call_of_room`. -/
def State.called (s : State) (nnn : Addr12) (h : s.sp.val < 16) : State :=
  { s with stack := s.stack.set s.sp.val s.pc h, sp := ⟨s.sp.val + 1, by omega⟩, pc := zextAddr nnn }

theorem exec_call_of_room (nnn : Addr12) {s : State} (h : s.sp.val < 16) :
    exec (.call nnn) s = .next (s.called nnn h) := by
  rw [exec_call]
  obtain ⟨_, e⟩ | ⟨hfull, -⟩ := withPush_cases (fun t => { t with pc := zextAddr nnn }) s
  · exact e
  · omega

theorem exec_call_of_full (nnn : Addr12) {s : State} (h : s.sp.val = 16) :
    exec (.call nnn) s = .next { s with fault := some ⟨.stackOverflow, 0⟩ } := by
  rw [exec_call]
  obtain ⟨hroom, -⟩ | ⟨-, e⟩ := withPush_cases (fun t => { t with pc := zextAddr nnn }) s
  · omega
  · exact e

/-- The push writes the entry at the old SP and no other (decision D23). -/
theorem getElem_stack_called (s : State) (nnn : Addr12) (h : s.sp.val < 16) (k : Fin 16) :
    (s.called nnn h).stack[k] = if s.sp.val = k.val then s.pc else s.stack[k] :=
  Vector.getElem_set h k.isLt

/-- The state that a RET leaves whose entry is at `top`: `exec_ret_of_entry`. -/
def State.returned (s : State) (top : Fin 16) : State :=
  { s with sp := top.castSucc, pc := s.stack[top] }

theorem exec_ret_of_entry {s : State} {top : Fin 16} (h : s.sp.val = top.val + 1) :
    exec .ret s = .next (s.returned top) := by
  rw [exec_ret]
  obtain ⟨_, e⟩ | ⟨hempty, -⟩ := popPc_cases s
  · have htop : s.sp.val - 1 = top.val := by omega
    simp only [e, htop]
    rfl
  · omega

theorem exec_ret_of_empty {s : State} (h : s.sp.val = 0) :
    exec .ret s = .next { s with fault := some ⟨.stackUnderflow, 0⟩ } := by
  rw [exec_ret]
  obtain ⟨hentry, -⟩ | ⟨-, e⟩ := popPc_cases s
  · omega
  · exact e

/-- Settles O18: below depth 16 CALL leaves `State.called`, at depth 16 it takes the fault. -/
theorem callPushesReturnAddress : Obligations.CallPushesReturnAddress := by
  refine ⟨fun nnn => Laws.decodeWord_encode (.call nnn), fun nnn s => ⟨fun top htop => ?room, ?full⟩⟩
  case room =>
    have h : s.sp.val < 16 := by omega
    refine ⟨_, exec_call_of_room nnn h, rfl, toNat_zextAddr nnn, rfl, ?_, fun k hk => ?_⟩
    · rw [getElem_stack_called, if_pos htop]
    · rw [getElem_stack_called, if_neg (by omega)]
  case full => exact exec_call_of_full nnn

/-- Settles O19: above depth 0 RET leaves `State.returned`, at depth 0 it takes the fault. -/
theorem returnPopsAddress : Obligations.ReturnPopsAddress :=
  ⟨Laws.decodeWord_encode .ret,
    fun _ => ⟨fun _ htop => ⟨_, exec_ret_of_entry htop, rfl, rfl, rfl⟩, exec_ret_of_empty⟩⟩

/-- Settles O20: the entry at the old SP is live after the CALL, and it is the one that RET pops. -/
theorem callThenReturnComesBack : Obligations.CallThenReturnComesBack := by
  intro nnn s h
  obtain ⟨t, hcall, -, -, htsp, htop, -⟩ := (callPushesReturnAddress.2 nnn s).1 ⟨s.sp.val, h⟩ rfl
  refine ⟨t, hcall, fun u husp hlive => ?_⟩
  have hdepth : u.sp.val = s.sp.val + 1 := by rw [husp, htsp]
  obtain ⟨w, hret, -, hwpc, hwsp⟩ := (returnPopsAddress.2 u).1 ⟨s.sp.val, h⟩ hdepth
  have hentry : u.stack[(⟨s.sp.val, h⟩ : Fin 16)] = s.pc := by
    rw [hlive _ (by rw [htsp]; exact Nat.lt_succ_self _), htop]
  exact ⟨w, hret, hwpc.trans hentry, Fin.ext hwsp⟩

/-! ### The register skips (41_control_flow.md R103 to R106, R108) -/

theorem State.skipIf_eq_with_pc (s : State) (c : Bool) : s.skipIf c = { s with pc := (s.skipIf c).pc } := by
  cases c <;> rfl

theorem toNat_pc_skipIf (s : State) (c : Bool) :
    (s.skipIf c).pc.toNat = (s.pc.toNat + if c then 2 else 0) % 65536 := by
  cases c with
  | true => exact toNat_add_two s.pc
  | false => exact (Nat.mod_eq_of_lt s.pc.isLt).symm

theorem toNat_pc_skipIf_beq (s : State) (a b : Byte) :
    (s.skipIf (a == b)).pc.toNat = (s.pc.toNat + if a.toNat = b.toNat then 2 else 0) % 65536 := by
  simp only [toNat_pc_skipIf, beq_iff_eq, BitVec.toNat_inj]

theorem toNat_pc_skipIf_bne (s : State) (a b : Byte) :
    (s.skipIf (a != b)).pc.toNat = (s.pc.toNat + if a.toNat = b.toNat then 0 else 2) % 65536 := by
  simp only [toNat_pc_skipIf, bne_iff_ne, ne_eq, ite_not, BitVec.toNat_inj]

/-- Settles O21: each is one conditional skip, on equality or on inequality. -/
theorem immediateSkips : Obligations.ImmediateSkips := by
  refine fun x kk => ⟨⟨Laws.decodeWord_encode (.seImm x kk), fun s => ?se⟩,
    ⟨Laws.decodeWord_encode (.sneImm x kk), fun s => ?sne⟩⟩
  case se => exact ⟨_, rfl, s.skipIf_eq_with_pc _, toNat_pc_skipIf_beq s _ _⟩
  case sne => exact ⟨_, rfl, s.skipIf_eq_with_pc _, toNat_pc_skipIf_bne s _ _⟩

/-- Settles O22: each is one conditional skip, and the dispatch on 5 and 9 asks for the last digit 0. -/
theorem registerSkips : Obligations.RegisterSkips := by
  refine ⟨fun x y n hn => ⟨fun i => ?invalid5, fun i => ?invalid9⟩, fun x y => ⟨⟨?word5, fun s => ?se⟩,
    ⟨?word9, fun s => ?sne⟩⟩⟩
  case invalid5 =>
    exact Laws.ofNat_eq_wordXY 5 n x y ▸ Laws.decodeWord_wordXY_ne_ok (m := 5) (fun _ _ => if_neg hn) x y i
  case invalid9 =>
    exact Laws.ofNat_eq_wordXY 9 n x y ▸ Laws.decodeWord_wordXY_ne_ok (m := 9) (fun _ _ => if_neg hn) x y i
  case word5 => exact Laws.ofNat_eq_wordXY 5 0 x y ▸ Laws.decodeWord_encode (.seReg x y)
  case word9 => exact Laws.ofNat_eq_wordXY 9 0 x y ▸ Laws.decodeWord_encode (.sneReg x y)
  case se => exact ⟨_, rfl, s.skipIf_eq_with_pc _, toNat_pc_skipIf_beq s _ _⟩
  case sne => exact ⟨_, rfl, s.skipIf_eq_with_pc _, toNat_pc_skipIf_bne s _ _⟩

/-! ### JP and JP_V0 (41_control_flow.md R101, R107) -/

theorem exec_jp (nnn : Addr12) (s : State) : exec (.jp nnn) s = .next { s with pc := zextAddr nnn } := rfl

/-- A StepInstruction whose next state has no fault latched returns Ok (40_step_cycle.md R94). -/
theorem stepResult_ok {s t : State} (hf : s.fault = none) (hw : s.wait = false)
    (h : stepInstruction s = .next t) (ht : t.fault = none) : stepResult s = .ok := by
  rw [stepInstruction_running hf hw] at h
  simp [stepResult, hf, hw, h, ht]

/-- The fixed point of R208 (c): the jump puts PC back to where the fetch found it. -/
theorem SelfJump.stepInstruction_eq {s : State} (h : SelfJump s) :
    stepInstruction s = .next { s with launching := false } := by
  obtain ⟨nnn, hword, htarget⟩ := h.jump
  have hdecode : decodeWord s.opcode = .ok (.jp nnn) := hword ▸ Laws.decodeWord_encode (.jp nnn)
  have hpc : zextAddr nnn = s.pc := BitVec.eq_of_toNat_eq ((toNat_zextAddr nnn).trans htarget.symm)
  rw [stepInstruction_of_decode h.fault h.wait h.fetch hdecode, exec_jp, hpc]
  rfl

/-- Settles O16: JP is one write of PC, and a self-jump writes the PC it was fetched at. -/
theorem jumpGoesToTarget : Obligations.JumpGoesToTarget := by
  refine ⟨fun nnn => Laws.decodeWord_encode (.jp nnn), fun nnn s => ⟨_, exec_jp nnn s, rfl, toNat_zextAddr nnn⟩,
    fun s h => ⟨?result, h.stepInstruction_eq, fun hs => ?step⟩⟩
  case result => exact stepResult_ok h.fault h.wait h.stepInstruction_eq h.fault
  case step => rw [step_of_no_schedule hs, h.stepInstruction_eq]

/-- The target of JP_V0 stays below 2^16, so the 16-bit sum is the sum (decision D12). -/
theorem toNat_jpV0_target (b : Byte) (nnn : Addr12) :
    (zextByte b + zextAddr nnn).toNat = b.toNat + nnn.toNat := by
  rw [BitVec.toNat_add, toNat_zextByte, toNat_zextAddr]; omega

/-- Settles O17: JP_V0 is one write of PC, of a sum that does not overflow. -/
theorem jumpV0AddsOffset : Obligations.JumpV0AddsOffset :=
  ⟨fun nnn => Laws.decodeWord_encode (.jpV0 nnn),
    fun nnn _ => ⟨_, rfl, rfl, toNat_jpV0_target _ nnn, toNat_jpV0_le _ nnn⟩⟩

end Sys2Proof.Machine

/-! ## The family 42_load_alu.md: register loads, arithmetic, logic, shifts and random -/

namespace Sys2Proof.Laws

/-- The word of format XY as the spec's tables have it: the two fixed digits first (30_encoding.md R72). -/
theorem decodeWord_ofNat_wordXY (m d : Nibble) {x y : Index} {i : Instr} (h : encode i = wordXY m x y d) :
    decodeWord (BitVec.ofNat 16 (m.toNat * 4096 + d.toNat + x.val * 256 + y.val * 16)) = .ok i := by
  have hsum : m.toNat * 4096 + d.toNat + x.val * 256 + y.val * 16 =
      m.toNat * 4096 + x.val * 256 + y.val * 16 + d.toNat := by omega
  rw [hsum, ofNat_eq_wordXY, ← h, decodeWord_encode]

end Sys2Proof.Laws

namespace Sys2Proof.Machine

/-! ### What a write of one register leaves in V -/

theorem State.getElem_v_setV_self (s : State) (x : Index) (b : Byte) : (s.setV x b).v[x] = b :=
  s.getV_setV_self x b

theorem State.otherVSame_setV (s : State) (x : Index) (b : Byte) : OtherVSame s (s.setV x b) x :=
  fun _ hr => s.getV_setV_ne b hr

/-- Everything a write of one register does, from the bits of the byte written. -/
theorem exists_next_setV_of_bits (s : State) {x : Index} {b : Byte} {bit : Nat → Bool}
    (hbits : ∀ k < 8, b.getLsbD k = bit k) :
    ∃ t, (.next (s.setV x b) : Result) = .next t ∧ t = { s with v := t.v } ∧ OtherVSame s t x ∧
      ∀ k < 8, t.v[x].getLsbD k = bit k :=
  ⟨_, rfl, s.setV_eq x b, s.otherVSame_setV x b, (s.getElem_v_setV_self x b).symm ▸ hbits⟩

/-- Settles O23: each is one write of Vx, of kk or of an 8-bit sum. -/
theorem immediateLoadsAndAdds : Obligations.ImmediateLoadsAndAdds := by
  refine fun x kk => ⟨⟨Laws.decodeWord_encode (.ldImm x kk), fun s => ?ldImm⟩,
    ⟨Laws.decodeWord_encode (.addImm x kk), fun s => ?addImm⟩⟩
  case ldImm => exact ⟨_, rfl, s.setV_eq x _, s.otherVSame_setV x _, s.getElem_v_setV_self x kk⟩
  case addImm =>
    refine ⟨_, rfl, s.setV_eq x _, s.otherVSame_setV x _, ?_⟩
    rw [s.getElem_v_setV_self]
    exact BitVec.toNat_add _ kk

/-- Settles O24: each is one write of Vx, and the bitwise operations act bit by bit. -/
theorem registerLogicKeepsFlag : Obligations.RegisterLogicKeepsFlag := by
  refine fun x y => ⟨⟨Laws.decodeWord_ofNat_wordXY 8 0 rfl, fun s => ?ldReg⟩,
    ⟨Laws.decodeWord_ofNat_wordXY 8 1 rfl, fun s => ?orReg⟩,
    ⟨Laws.decodeWord_ofNat_wordXY 8 2 rfl, fun s => ?andReg⟩,
    ⟨Laws.decodeWord_ofNat_wordXY 8 3 rfl, fun s => ?xorReg⟩⟩
  case ldReg => exact ⟨_, rfl, s.setV_eq x _, s.otherVSame_setV x _, s.getElem_v_setV_self x _⟩
  case orReg => exact exists_next_setV_of_bits s fun _ _ => BitVec.getLsbD_or
  case andReg => exact exists_next_setV_of_bits s fun _ _ => BitVec.getLsbD_and
  case xorReg => exact exists_next_setV_of_bits s fun _ _ => BitVec.getLsbD_xor

/-- Settles O28: one write of Vx, of the free byte and kk bit by bit, beside the count of free bytes. -/
theorem randomByteIsMasked : Obligations.RandomByteIsMasked := by
  refine fun x kk => ⟨Laws.decodeWord_encode (.rnd x kk), fun s =>
    ⟨_, rfl, rfl, State.otherVSame_setV { s with draws := s.draws + 1 } x _, fun b _ => ?_⟩⟩
  rw [State.getElem_v_setV_self]
  exact BitVec.getLsbD_and

/-! ### The flag and the result of the flag writers, as numbers (42_load_alu.md R121 to R132) -/

theorem toNat_flagByte (f : Bool) : (flagByte f).toNat = f.toNat := by cases f <;> rfl

theorem toNat_flagByte_decide (p : Prop) [Decidable p] :
    (flagByte (decide p)).toNat = if p then 1 else 0 := by
  simp only [flagByte, decide_eq_true_eq]
  split <;> rfl

theorem toNat_addCarry_result (p q : Byte) : (addCarry p q).2.toNat = (p.toNat + q.toNat) % 256 :=
  BitVec.toNat_add p q

theorem toNat_addCarry_flag (p q : Byte) :
    (flagByte (addCarry p q).1).toNat = if p.toNat + q.toNat > 255 then 1 else 0 :=
  toNat_flagByte_decide _

theorem toNat_subNoBorrow_result (p q : Byte) :
    (subNoBorrow p q).2.toNat = (p.toNat + 256 - q.toNat) % 256 := by
  rw [subNoBorrow, BitVec.toNat_sub]; omega

theorem toNat_subNoBorrow_flag (p q : Byte) :
    (flagByte (subNoBorrow p q).1).toNat = if p.toNat ≥ q.toNat then 1 else 0 :=
  toNat_flagByte_decide _

theorem toNat_shiftRight_result (p : Byte) : (shiftRight p).2.toNat = p.toNat / 2 :=
  BitVec.toNat_ushiftRight p 1

/-- The bit shifted out on the right is bit 0. -/
theorem toNat_shiftRight_flag (p : Byte) : (flagByte (shiftRight p).1).toNat = p.toNat % 2 := by
  rw [toNat_flagByte, shiftRight, BitVec.getLsbD, Nat.toNat_testBit]; omega

theorem toNat_shiftLeft_result (p : Byte) : (shiftLeft p).2.toNat = p.toNat * 2 % 256 := by
  rw [shiftLeft, BitVec.toNat_shiftLeft, Nat.shiftLeft_eq]

/-- The bit shifted out on the left is bit 7, the highest bit of a byte. -/
theorem toNat_shiftLeft_flag (p : Byte) : (flagByte (shiftLeft p).1).toNat = p.toNat / 128 := by
  rw [toNat_flagByte, shiftLeft, BitVec.getLsbD, Nat.toNat_testBit]; omega

/-! ### What a flag writer leaves in V (42_load_alu.md R121, decision D8) -/

theorem State.getElem_v_setFlagged_self (s : State) (x : Index) (out : Bool × Byte) :
    (s.setFlagged x out).v[x] = out.2 :=
  (s.getV_setFlagged x x out).trans (if_pos rfl)

theorem State.getElem_vf_setFlagged (s : State) {x : Index} (out : Bool × Byte) (hx : x ≠ 15) :
    (s.setFlagged x out).v[(15 : Index)] = flagByte out.1 :=
  (s.getV_setFlagged x vf out).trans ((if_neg hx.symm).trans (if_pos rfl))

theorem State.otherVSameButVF_setFlagged (s : State) (x : Index) (out : Bool × Byte) :
    OtherVSameButVF s (s.setFlagged x out) x :=
  fun r hr hf => (s.getV_setFlagged x r out).trans ((if_neg hr).trans (if_neg hf))

/-- Everything a flag writer does, from its result and its flag as numbers. -/
theorem exists_next_setFlagged (s : State) {x : Index} {out : Bool × Byte} {result flag : Nat}
    (hresult : out.2.toNat = result) (hflag : (flagByte out.1).toNat = flag) :
    ∃ t, (.next (s.setFlagged x out) : Result) = .next t ∧ t = { s with v := t.v } ∧
      OtherVSameButVF s t x ∧ t.v[x].toNat = result ∧
      (x ≠ 15 → t.v[(15 : Index)].toNat = flag) := by
  refine ⟨_, rfl, s.setFlagged_eq x out, s.otherVSameButVF_setFlagged x out, ?_, fun hx => ?_⟩
  · rw [s.getElem_v_setFlagged_self, hresult]
  · rw [s.getElem_vf_setFlagged out hx, hflag]

/-- Settles O25: ADD_REG is the flag writer of `addCarry`. -/
theorem addRegisterSetsCarry : Obligations.AddRegisterSetsCarry :=
  fun _ _ => ⟨Laws.decodeWord_ofNat_wordXY 8 4 rfl, fun s =>
    exists_next_setFlagged s (toNat_addCarry_result _ _) (toNat_addCarry_flag _ _)⟩

/-- Settles O26: SUB and SUBN are the flag writers of `subNoBorrow`, with the operands in either order. -/
theorem subtractSetsNoBorrow : Obligations.SubtractSetsNoBorrow := by
  refine fun x y => ⟨⟨Laws.decodeWord_ofNat_wordXY 8 5 rfl, fun s => ?sub⟩,
    ⟨Laws.decodeWord_ofNat_wordXY 8 7 rfl, fun s => ?subn⟩⟩
  case sub | subn => exact exists_next_setFlagged s (toNat_subNoBorrow_result _ _) (toNat_subNoBorrow_flag _ _)

/-- Settles O27: SHR and SHL are the flag writers of `shiftRight` and `shiftLeft` of Vx; neither reads Vy. -/
theorem shiftsMoveBitToFlag : Obligations.ShiftsMoveBitToFlag := by
  refine fun x y => ⟨⟨Laws.decodeWord_ofNat_wordXY 8 6 rfl, fun s => ?shr⟩,
    ⟨Laws.decodeWord_ofNat_wordXY 8 0xE rfl, fun s => ?shl⟩⟩
  case shr => exact exists_next_setFlagged s (toNat_shiftRight_result _) (toNat_shiftRight_flag _)
  case shl => exact exists_next_setFlagged s (toNat_shiftLeft_result _) (toNat_shiftLeft_flag _)

end Sys2Proof.Machine

/-! ## The family 43_index_memory.md: the index register and the memory transfers -/

namespace Sys2Proof.Laws

/-- The word of format X as the spec's tables have it: the fixed digits first (30_encoding.md R72, R78). -/
theorem decodeWord_ofNat_wordX (m : Nibble) (kk : Byte) {x : Index} {i : Instr}
    (h : encode i = wordXKK m x kk) :
    decodeWord (BitVec.ofNat 16 (m.toNat * 4096 + kk.toNat + x.val * 256)) = .ok i := by
  have hword : BitVec.ofNat 16 (m.toNat * 4096 + kk.toNat + x.val * 256) = wordXKK m x kk :=
    congrArg _ (Nat.add_right_comm _ _ _)
  rw [hword, ← h, decodeWord_encode]

end Sys2Proof.Laws

namespace Sys2Proof.Machine

/-! ### The index register (43_index_memory.md R140 to R142) -/

theorem exec_ldI (nnn : Addr12) (s : State) : exec (.ldI nnn) s = .next { s with i := zextAddr nnn } := rfl

theorem exec_addI (x : Index) (s : State) :
    exec (.addI x) s = .next { s with i := s.i + zextByte (s.getV x) } := rfl

theorem exec_ldF (x : Index) (s : State) :
    exec (.ldF x) s =
      .next { s with i := BitVec.ofNat 16 (Config.fontBase.val + (s.getV x).toNat * 5) } := rfl

/-- The address of a glyph stays below 2^16 for every byte and every FONT_BASE, so LD_F does not wrap. -/
theorem toNat_glyphAddress (b : Byte) :
    (BitVec.ofNat 16 (Config.fontBase.val + b.toNat * 5)).toNat = Config.fontBase.val + b.toNat * 5 := by
  have hbase : Config.fontBase.val < 433 := Config.fontBase.isLt
  rw [BitVec.toNat_ofNat]
  omega

theorem toNat_add_zextByte (w : Word) (b : Byte) :
    (w + zextByte b).toNat = (w.toNat + b.toNat) % 65536 := by
  rw [BitVec.toNat_add, toNat_zextByte]

/-- Settles O29: each is one write of I, of a value that does not overflow. -/
theorem indexLoads : Obligations.IndexLoads :=
  ⟨fun nnn => ⟨Laws.decodeWord_encode (.ldI nnn), fun s => ⟨_, exec_ldI nnn s, rfl, toNat_zextAddr nnn⟩⟩,
    fun x => ⟨Laws.decodeWord_ofNat_wordX 0xF 0x29 rfl,
      fun s => ⟨_, exec_ldF x s, rfl, toNat_glyphAddress (s.getV x)⟩⟩⟩

/-- Settles O30: ADD_I is one write of I, of a 16-bit sum. -/
theorem addIndexWrapsAt16Bits : Obligations.AddIndexWrapsAt16Bits :=
  fun x => ⟨Laws.decodeWord_ofNat_wordX 0xF 0x1E rfl,
    fun s => ⟨_, exec_addI x s, rfl, toNat_add_zextByte s.i (s.getV x)⟩⟩

/-! ### LD_B (43_index_memory.md R143) -/

/-- The state that an LD_B in range leaves: `exec_ldB_of_fits`. -/
def State.digitsStored (s : State) (x : Index) : State :=
  { s with mem := Memory.writeBytes s.mem s.base (decimalDigits (s.getV x)) }

theorem exec_ldB_of_fits {x : Index} {s : State} (h : s.base + 3 ≤ 4096) :
    exec (.ldB x) s = .next (s.digitsStored x) := by
  rw [exec_ldB]; exact withAccess_of_fits _ s (.inr h)

@[simp] theorem length_decimalDigits (b : Byte) : (decimalDigits b).length = 3 := rfl

theorem read_digitsStored {x : Index} {s : State} (hmem : Memory.wf s.mem = true) (h : s.base + 3 ≤ 4096)
    (k : Fin 3) : Memory.read (s.digitsStored x).mem (s.base + k.val) = (decimalDigits (s.getV x))[k] :=
  Memory.read_writeBytes_inside hmem h k.isLt

theorem memSameOutside_digitsStored (s : State) (x : Index) :
    MemSameOutside s (s.digitsStored x) s.base 3 :=
  fun _ hc => Memory.read_writeBytes_outside hc

theorem toNat_decimalDigits (b : Byte) :
    (decimalDigits b)[0].toNat = b.toNat / 100 ∧ (decimalDigits b)[1].toNat = b.toNat / 10 % 10 ∧
      (decimalDigits b)[2].toNat = b.toNat % 10 := by
  have hb : b.toNat < 256 := b.isLt
  simp only [decimalDigits, List.getElem_cons_zero, List.getElem_cons_succ, BitVec.toNat_ofNat]
  omega

/-- Settles O31: LD_B in range leaves `State.digitsStored`, whose three bytes are the digits. -/
theorem decimalDigitsStored : Obligations.DecimalDigitsStored := by
  refine fun x => ⟨Laws.decodeWord_ofNat_wordX 0xF 0x33 rfl, fun s hmem hfits => ?_⟩
  obtain ⟨hhundreds, htens, hunits⟩ := toNat_decimalDigits (s.getV x)
  refine ⟨s.digitsStored x, exec_ldB_of_fits hfits, rfl, Memory.wf_writeBytes hmem (.inr hfits), ?_, ?_, ?_,
    memSameOutside_digitsStored s x⟩
  · exact (congrArg _ (read_digitsStored hmem hfits 0)).trans hhundreds
  · exact (congrArg _ (read_digitsStored hmem hfits 1)).trans htens
  · exact (congrArg _ (read_digitsStored hmem hfits 2)).trans hunits

/-! ### STORE and LOAD (43_index_memory.md R144 to R146) -/

theorem wf_mem_stored {x : Index} {s : State} (hmem : Memory.wf s.mem = true)
    (h : s.base + x.val + 1 ≤ 4096) : Memory.wf (s.stored x).mem = true :=
  Memory.wf_writeBytes hmem (.inr (by rw [length_lowV]; omega))

theorem memSameOutside_stored (s : State) (x : Index) :
    MemSameOutside s (s.stored x) s.base (x.val + 1) :=
  fun _ hc => Memory.read_writeBytes_outside (by rwa [length_lowV])

/-- Settles O32: STORE in range leaves `State.stored`. -/
theorem registersStored : Obligations.RegistersStored :=
  fun x => ⟨Laws.decodeWord_ofNat_wordX 0xF 0x55 rfl, fun s hmem hfits =>
    ⟨s.stored x, exec_store_of_fits hfits, rfl, wf_mem_stored hmem hfits,
      fun _ hk => read_stored hmem hfits hk, memSameOutside_stored s x⟩⟩

/-- The state that a LOAD of V0 to Vx in range leaves: `exec_load_of_fits`. -/
def State.loaded (s : State) (x : Index) : State :=
  s.setLowV x fun k => Memory.read s.mem (s.base + k)

theorem exec_load_of_fits {x : Index} {s : State} (h : s.base + x.val + 1 ≤ 4096) :
    exec (.load x) s = .next (s.loaded x) := by
  rw [exec_load]; exact withAccess_of_fits _ s (.inr h)

/-- Settles O33: LOAD in range leaves `State.loaded`, one write of V0 to Vx. -/
theorem registersLoaded : Obligations.RegistersLoaded :=
  fun x => ⟨Laws.decodeWord_ofNat_wordX 0xF 0x65 rfl, fun s hfits =>
    ⟨s.loaded x, exec_load_of_fits hfits, s.setLowV_eq x _, fun k => s.getV_setLowV x k _⟩⟩

/-- Settles O35: the LOAD reads the bytes that the STORE left, at the addresses where it left them. -/
theorem saveRestoreRoundTrip : Obligations.SaveRestoreRoundTrip := by
  intro x s hmem hfits
  obtain ⟨t, hstore, -, -, hstored, -⟩ := (registersStored x).2 s hmem hfits
  refine ⟨t, hstore, fun u hi hbytes => ?_⟩
  have hbase : u.base = s.base := congrArg BitVec.toNat hi
  obtain ⟨w, hload, -, hloaded⟩ := (registersLoaded x).2 u (by rwa [hbase])
  refine ⟨w, hload, fun k hk => ?_⟩
  have hlast : s.base + k.val ≤ s.base + x.val := Nat.add_le_add_left hk _
  calc w.v[k]
    _ = Memory.read u.mem (u.base + k.val) := (hloaded k).trans (if_pos hk)
    _ = Memory.read t.mem (s.base + k.val) := by rw [hbase]; exact hbytes _ (Nat.le_add_right _ _) hlast
    _ = s.v[k] := hstored k hk

end Sys2Proof.Machine

/-! ## The family 44_draw.md: CLS and DRAW -/

namespace Sys2Proof.Laws

/-- The word of format XYN as the spec's tables have it (30_encoding.md R72). -/
theorem decodeWord_ofNat_wordXYN (m : Nibble) {x y n : Index} {i : Instr}
    (h : encode i = wordXY m x y (digitOf n)) :
    decodeWord (BitVec.ofNat 16 (m.toNat * 4096 + x.val * 256 + y.val * 16 + n.val)) = .ok i := by
  rw [← toNat_digitOf n, ofNat_eq_wordXY, ← h, decodeWord_encode]

end Sys2Proof.Laws

namespace Sys2Proof.Machine

/-! ### CLS (44_draw.md R150) -/

theorem exec_cls (s : State) : exec .cls s = .next { s with fb := Framebuffer.clear } := rfl

/-- Settles O37: CLS is one write of the framebuffer, of the clear one. -/
theorem clearBlanksEveryPixel : Obligations.ClearBlanksEveryPixel :=
  ⟨Laws.decodeWord_encode .cls, fun s => ⟨_, exec_cls s, rfl, Framebuffer.pixel_clear⟩⟩

/-! ### What a DRAW in range leaves (44_draw.md R151 to R155) -/

/-- The state that a DRAW in range leaves: `exec_draw_of_fits`. -/
def State.spriteDrawn (s : State) (x y n : Index) : State :=
  { s with fb := (s.drawn x y n).1 }.setV vf (flagByte (s.drawn x y n).2)

theorem exec_draw_of_fits {x y n : Index} {s : State} (h : n = 0 ∨ s.base + n.val ≤ 4096) :
    exec (.draw x y n) s = .next (s.spriteDrawn x y n) := by
  rw [exec_draw]
  exact withAccess_of_fits _ s (h.imp_left (congrArg Fin.val))

theorem getElem_vf_spriteDrawn (s : State) (x y n : Index) :
    (s.spriteDrawn x y n).v[(15 : Index)] = flagByte (s.drawn x y n).2 :=
  State.getElem_v_setV_self _ vf _

/-- The rows of the sprite are the bytes from I on, and a row below the last has no 1 bit. -/
theorem spriteBit_sprite (s : State) (x y n : Index) (row col : Nat) :
    spriteBit (s.sprite n) (s.origin x y).1 (s.origin x y).2 row col = s.spriteBitAt x y n row col := by
  rw [State.spriteBitAt, spriteBit, State.origin, State.getElem_v, State.getElem_v]
  dsimp only
  generalize (s.getV x).toNat % 64 = x0
  generalize (s.getV y).toNat % 32 = y0
  by_cases hin : row - y0 < (s.sprite n).length
  · have hbyte : (s.sprite n).getD (row - y0) 0 = Memory.read s.mem (s.i.toNat + (row - y0)) :=
      (List.getD_eq_getElem _ _ hin).trans (Memory.getElem_readBytes _ _ _ _ hin)
    have hrect : (y0 ≤ row ∧ x0 ≤ col ∧ col - x0 < 8) ↔
        (y0 ≤ row ∧ row < y0 + n.val ∧ x0 ≤ col ∧ col < x0 + 8) := by
      rw [State.sprite, Memory.length_readBytes] at hin
      omega
    rw [hbyte, decide_eq_decide.mpr hrect]
  · have hbyte : (s.sprite n).getD (row - y0) 0 = 0#8 := List.getD_eq_default _ _ (Nat.le_of_not_lt hin)
    have hrect : ¬(y0 ≤ row ∧ row < y0 + n.val ∧ x0 ≤ col ∧ col < x0 + 8) := by
      rw [State.sprite, Memory.length_readBytes] at hin
      omega
    rw [hbyte, decide_eq_false hrect, BitVec.getLsbD_zero, Bool.and_false, Bool.false_and]

/-- A DRAW in range inverts the pixels that a sprite bit of 1 lands on. -/
theorem pixel_spriteDrawn (s : State) (x y n : Index) {row col : Nat} (hr : row < 32) (hc : col < 64) :
    Framebuffer.pixel (s.spriteDrawn x y n).fb row col =
      (Framebuffer.pixel s.fb row col ^^ s.spriteBitAt x y n row col) := by
  rw [← spriteBit_sprite]
  exact pixel_drawRows _ _ _ _ _ _ hr hc

/-- Settles O38: DRAW in range leaves `State.spriteDrawn`. -/
theorem drawInvertsSpritePixels : Obligations.DrawInvertsSpritePixels :=
  fun x y n => ⟨Laws.decodeWord_ofNat_wordXYN 0xD rfl, fun s hfits =>
    ⟨s.spriteDrawn x y n, exec_draw_of_fits hfits, rfl, fun _ hr => State.getV_setV_ne _ _ hr,
      fun _ hr _ hc => pixel_spriteDrawn s x y n hr hc⟩⟩

/-! ### The collision flag (44_draw.md R154) -/

theorem flagByte_eq_one_iff {f : Bool} : flagByte f = 1 ↔ f = true := by cases f <;> decide

theorem flagByte_eq_zero_iff {f : Bool} : flagByte f = 0 ↔ f = false := by cases f <;> decide

/-- VF reports whether a sprite bit of 1 lands on a set pixel of the screen. -/
theorem vf_spriteDrawn_eq_one_iff (s : State) (x y n : Index) :
    (s.spriteDrawn x y n).v[(15 : Index)] = 1 ↔ ∃ row < 32, ∃ col < 64,
      Framebuffer.pixel s.fb row col = true ∧ s.spriteBitAt x y n row col = true := by
  rw [getElem_vf_spriteDrawn, flagByte_eq_one_iff, State.drawn, collision_drawRows]
  simp only [Bool.false_eq_true, false_or, spriteBit_sprite]
  constructor
  · rintro ⟨row, col, hr, hc, hbit, hset⟩; exact ⟨row, hr, col, hc, hset, hbit⟩
  · rintro ⟨row, hr, col, hc, hset, hbit⟩; exact ⟨row, col, hr, hc, hbit, hset⟩

/-- VF is 0 when it is not 1. -/
theorem vf_spriteDrawn_eq_zero_iff (s : State) (x y n : Index) :
    (s.spriteDrawn x y n).v[(15 : Index)] = 0 ↔ ∀ row < 32, ∀ col < 64,
      Framebuffer.pixel s.fb row col = true → s.spriteBitAt x y n row col = false := by
  have hnot : (s.spriteDrawn x y n).v[(15 : Index)] = 0 ↔ ¬(s.spriteDrawn x y n).v[(15 : Index)] = 1 := by
    rw [getElem_vf_spriteDrawn, flagByte_eq_zero_iff, flagByte_eq_one_iff, Bool.not_eq_true]
  rw [hnot, vf_spriteDrawn_eq_one_iff]
  simp only [not_exists, not_and, Bool.not_eq_true]

/-- Settles O39: the two premises are the two values of VF. -/
theorem drawReportsCollision : Obligations.DrawReportsCollision :=
  fun x y n s hfits => ⟨s.spriteDrawn x y n, exec_draw_of_fits hfits,
    (vf_spriteDrawn_eq_one_iff s x y n).mpr, (vf_spriteDrawn_eq_zero_iff s x y n).mpr⟩

/-! ### A second DRAW (44_draw.md R156) -/

/-- A framebuffer is its pixels. -/
theorem Framebuffer.eq_of_pixel_eq {fb fb' : Framebuffer}
    (h : ∀ row < 32, ∀ col < 64, Framebuffer.pixel fb row col = Framebuffer.pixel fb' row col) : fb = fb' := by
  refine Vector.ext fun row hr => Vector.ext fun col hc => ?_
  have hpixel := h row hr col hc
  rwa [Framebuffer.pixel, Framebuffer.pixel, dif_pos ⟨hr, hc⟩, dif_pos ⟨hr, hc⟩] at hpixel

/-- The sprite that a DRAW reads depends on its coordinates, I and memory only. -/
theorem spriteBitAt_congr {s u : State} {x y : Index} (hx : u.v[x] = s.v[x]) (hy : u.v[y] = s.v[y])
    (hi : u.i = s.i) (hmem : u.mem = s.mem) (n : Index) (row col : Nat) :
    u.spriteBitAt x y n row col = s.spriteBitAt x y n row col := by
  rw [State.spriteBitAt, State.spriteBitAt, hx, hy, hi, hmem]

/-- Two claims about a pixel of the screen that agree at each pixel. -/
theorem exists_screen_congr {p q : Nat → Nat → Prop}
    (h : ∀ row < 32, ∀ col < 64, (p row col ↔ q row col)) :
    (∃ row < 32, ∃ col < 64, p row col) ↔ ∃ row < 32, ∃ col < 64, q row col :=
  exists_congr fun row => and_congr_right fun hr => exists_congr fun col => and_congr_right (h row hr col)

section SecondDraw

/-! `u` is a state in which the same DRAW runs on the screen that the first one, in `s`, left. -/

variable {s u : State} {x y n : Index} (hfb : u.fb = (s.spriteDrawn x y n).fb)
  (hbit : ∀ row col, u.spriteBitAt x y n row col = s.spriteBitAt x y n row col)
include hfb hbit

/-- The second DRAW inverts each pixel that the first one inverted. -/
theorem fb_second_spriteDrawn : (u.spriteDrawn x y n).fb = s.fb := by
  refine Framebuffer.eq_of_pixel_eq fun row hr col hc => ?_
  rw [pixel_spriteDrawn u x y n hr hc, hfb, pixel_spriteDrawn s x y n hr hc, hbit, Bool.xor_assoc,
    Bool.xor_self, Bool.xor_false]

/-- Under a 1 bit of the sprite the second DRAW finds set what the first one found clear. -/
theorem vf_second_spriteDrawn_eq_one_iff :
    (u.spriteDrawn x y n).v[(15 : Index)] = 1 ↔ ∃ row < 32, ∃ col < 64,
      Framebuffer.pixel s.fb row col = false ∧ s.spriteBitAt x y n row col = true := by
  rw [vf_spriteDrawn_eq_one_iff]
  refine exists_screen_congr fun row hr col hc => ?_
  rw [hfb, pixel_spriteDrawn s x y n hr hc, hbit]
  refine and_congr_left fun hone => ?_
  rw [hone, Bool.xor_true, Bool.not_eq_true']

/-- After a first DRAW without collision every 1 bit of the sprite landed on a clear pixel. -/
theorem vf_second_spriteDrawn_eq_one_iff_of_no_collision (hfirst : (s.spriteDrawn x y n).v[(15 : Index)] = 0) :
    (u.spriteDrawn x y n).v[(15 : Index)] = 1 ↔ ∃ row < 32, ∃ col < 64,
      s.spriteBitAt x y n row col = true := by
  rw [vf_second_spriteDrawn_eq_one_iff hfb hbit]
  rw [vf_spriteDrawn_eq_zero_iff] at hfirst
  refine exists_screen_congr fun row hr col hc => and_iff_right_of_imp fun hone => ?_
  refine Bool.eq_false_iff.mpr fun hset => ?_
  exact Bool.false_ne_true ((hfirst row hr col hc hset).symm.trans hone)

end SecondDraw

theorem vf_spriteDrawn_of_blank_sprite {s : State} {x y n : Index}
    (hblank : ∀ row < 32, ∀ col < 64, s.spriteBitAt x y n row col = false) :
    (s.spriteDrawn x y n).v[(15 : Index)] = 0 :=
  (vf_spriteDrawn_eq_zero_iff s x y n).mpr fun row hr col hc _ => hblank row hr col hc

/-- Settles O40: the first DRAW inverts the pixels under the sprite's 1 bits, and the second one inverts the
same ones back. -/
theorem drawTwiceRestoresScreen : Obligations.DrawTwiceRestoresScreen := by
  refine fun x y n s hfits => ⟨s.spriteDrawn x y n, exec_draw_of_fits hfits, fun u hfb hx hy hi hmem => ?_⟩
  have hbit := spriteBitAt_congr hx hy hi hmem n
  have hbase : u.base = s.base := congrArg BitVec.toNat hi
  refine ⟨u.spriteDrawn x y n, exec_draw_of_fits (by rwa [hbase]), fb_second_spriteDrawn hfb hbit,
    vf_second_spriteDrawn_eq_one_iff hfb hbit, vf_second_spriteDrawn_eq_one_iff_of_no_collision hfb hbit,
    fun hblank => ⟨vf_spriteDrawn_of_blank_sprite hblank, vf_spriteDrawn_of_blank_sprite ?_⟩⟩
  exact fun row hr col hc => (hbit row col).trans (hblank row hr col hc)

end Sys2Proof.Machine

/-! ## The family 45_keypad_timers.md: the key skips, the key wait and the timers -/

namespace Sys2Proof.Machine

/-! ### SKP and SKNP (45_keypad_timers.md R160, R161) -/

/-- A register that holds a key index skips by the level of that key. -/
theorem skipByKey_of_index {x k : Index} {s : State} (pressed : Bool) (h : (s.getV x).toNat = k.val) :
    skipByKey x pressed s = .next (s.skipIf (s.keys[k] == pressed)) := by
  obtain ⟨_, e⟩ | ⟨hout, -⟩ := skipByKey_cases x pressed s
  · simp only [e, h]; rfl
  · omega

/-- A register that holds no key index takes the fault, with its value as the information (decision D6). -/
theorem skipByKey_of_no_index {x : Index} {s : State} (pressed : Bool) (h : 15 < (s.getV x).toNat) :
    skipByKey x pressed s =
      .next { s with fault := some ⟨.keyOutOfRange, BitVec.ofNat 16 (s.getV x).toNat⟩ } := by
  obtain ⟨hindex, -⟩ | ⟨-, e⟩ := skipByKey_cases x pressed s
  · omega
  · rw [e, BitVec.ofNat_toNat]

theorem pc_skipIf_beq_true (s : State) (level : Bool) :
    (s.skipIf (level == true)).pc = if level = true then s.pc + 2 else s.pc := by
  cases level <;> rfl

theorem pc_skipIf_beq_false (s : State) (level : Bool) :
    (s.skipIf (level == false)).pc = if level = true then s.pc else s.pc + 2 := by
  cases level <;> rfl

/-- Settles O41: each is one skip by key, on either level. -/
theorem keySkips : Obligations.KeySkips := by
  refine fun x => ⟨Laws.decodeWord_ofNat_wordX 0xE 0x9E rfl, Laws.decodeWord_ofNat_wordX 0xE 0xA1 rfl,
    fun s => ⟨fun k hk => ⟨?skp, ?sknp⟩, fun hout t ht => ?fault⟩⟩
  case skp => exact ⟨_, skipByKey_of_index true hk, s.skipIf_eq_with_pc _, pc_skipIf_beq_true s _⟩
  case sknp => exact ⟨_, skipByKey_of_index false hk, s.skipIf_eq_with_pc _, pc_skipIf_beq_false s _⟩
  case fault => exact ht ▸ ⟨skipByKey_of_no_index true hout, skipByKey_of_no_index false hout⟩

/-! ### LD_VX_K and the press that ends its wait (45_keypad_timers.md R163, R164, 60_exceptions.md R187) -/

/-- The state that an LD_VX_K leaves: `exec_ldVxK`. -/
def State.awaiting (s : State) (x : Index) : State := { s with wait := true, waitx := x }

theorem exec_ldVxK (x : Index) (s : State) : exec (.ldVxK x) s = .next (s.awaiting x) := rfl

theorem toNat_keyCode (k : Index) : (BitVec.ofNat 8 k.val).toNat = k.val := by
  rw [BitVec.toNat_ofNat]; omega

/-- The state that a press event of key k leaves: `keySet_press_of_wait`. -/
def State.keyDelivered (s : State) (k : Index) : State :=
  { ({ s with keys := s.keys.set k.val true k.isLt } : State).setV s.waitx (BitVec.ofNat 8 k.val) with
    wait := false }

/-- The press of a key that was up, during a wait, is a press event (decision D10). -/
theorem keySet_press_of_wait {s : State} {k : Index} (hwait : s.wait = true) (hfault : s.fault = none)
    (hup : s.keys[k] = false) : s.keySet k true = s.keyDelivered k := by
  obtain ⟨-, e⟩ | ⟨hno, -⟩ := keySet_cases s k true
  · exact e
  · exact absurd ⟨rfl, hup, hwait, hfault⟩ hno

theorem toNat_getElem_v_keyDelivered (s : State) (k : Index) :
    (s.keyDelivered k).v[s.waitx].toNat = k.val :=
  (congrArg _ (State.getElem_v_setV_self _ s.waitx _)).trans (toNat_keyCode k)

theorem otherVSame_keyDelivered (s : State) (k : Index) : OtherVSame s (s.keyDelivered k) s.waitx :=
  State.otherVSame_setV { s with keys := s.keys.set k.val true k.isLt } s.waitx _

/-- Setting a key that is down already is no event. -/
theorem keySet_of_pressed {s : State} {k : Index} (hdown : s.keys[k] = true) : s.keySet k true = s := by
  obtain ⟨⟨-, hup, -⟩, -⟩ | ⟨-, e⟩ := keySet_cases s k true
  · cases hup.symm.trans hdown
  · have hkeys : s.keys.set k.val true k.isLt = s.keys := by
      rw [← hdown]; exact Vector.set_getElem_self k.isLt
    rw [e, hkeys]

/-- Settles O42: LD_VX_K leaves a core that awaits a key for Vx, and a press event delivers the key there. -/
theorem keyWaitSuspendsAndResolves : Obligations.KeyWaitSuspendsAndResolves := by
  refine fun x => ⟨Laws.decodeWord_ofNat_wordX 0xF 0x0A rfl, fun s => ⟨s.awaiting x, exec_ldVxK x s, rfl,
    fun hfault k => ⟨fun hup => ?press, fun hdown => ?held⟩⟩⟩
  case press =>
    have hpress : (s.awaiting x).keySet k true = (s.awaiting x).keyDelivered k :=
      keySet_press_of_wait rfl hfault hup
    exact ⟨_, congrArg Host.Outcome.next hpress, rfl, toNat_getElem_v_keyDelivered (s.awaiting x) k,
      otherVSame_keyDelivered (s.awaiting x) k, rfl⟩
  case held => exact congrArg Host.Outcome.next (keySet_of_pressed hdown)

/-! ### The timers (45_keypad_timers.md R162, R165, R166) -/

theorem exec_ldVxDt (x : Index) (s : State) : exec (.ldVxDt x) s = .next (s.setV x s.dt) := rfl

theorem exec_ldDtVx (x : Index) (s : State) : exec (.ldDtVx x) s = .next { s with dt := s.v[x] } := rfl

theorem exec_ldStVx (x : Index) (s : State) : exec (.ldStVx x) s = .next { s with st := s.v[x] } := rfl

/-- Settles O43: each is one write, of Vx or of a timer. -/
theorem timerAccessMovesByte : Obligations.TimerAccessMovesByte := by
  refine fun x => ⟨⟨Laws.decodeWord_ofNat_wordX 0xF 0x07 rfl, fun s => ?ldVxDt⟩,
    ⟨Laws.decodeWord_ofNat_wordX 0xF 0x15 rfl, fun s => ?ldDtVx⟩,
    ⟨Laws.decodeWord_ofNat_wordX 0xF 0x18 rfl, fun s => ?ldStVx⟩⟩
  case ldVxDt =>
    exact ⟨_, exec_ldVxDt x s, s.setV_eq x _, s.otherVSame_setV x _, s.getElem_v_setV_self x s.dt⟩
  case ldDtVx => exact ⟨_, exec_ldDtVx x s, rfl, rfl⟩
  case ldStVx => exact ⟨_, exec_ldStVx x s, rfl, rfl⟩

end Sys2Proof.Machine

/-! ## The family 60_exceptions.md: the faults, the halted core and the other transactions of the host -/

namespace Sys2Proof.Laws

/-- A word that selects no row of the opcode table decodes to no instruction (30_encoding.md R79). -/
theorem exists_decodeWord_error_of_selects_none {w : Word} (h : ∀ r ∈ opcodeTable, r.selects w = false) :
    ∃ e, decodeWord w = .error e := by
  cases hd : decodeWord w with
  | error e => exact ⟨e, rfl⟩
  | ok i =>
    have hword : encode i = w := decodeWord_eq_ok_iff_encode.mp hd
    cases (hword ▸ row_selects_encode i).symm.trans (h i.row (row_mem_opcodeTable i))

end Sys2Proof.Laws

namespace Sys2Proof.Machine

/-! ### The faults of an instruction (60_exceptions.md R170 to R176) -/

/-- Settles O6: the opcode that a ready core fetches is the word at PC, and it decodes to no instruction. -/
theorem invalidOpcodeHalts : Obligations.InvalidOpcodeHalts := by
  intro s op hs hword hnone
  have hop : s.opcode = op := BitVec.eq_of_toNat_eq ((Laws.toNat_wordOfBytes _ _).trans hword.symm)
  obtain ⟨e, he⟩ := Laws.exists_decodeWord_error_of_selects_none hnone
  rw [hs.step_eq, hop, execWord_of_error _ he]
  rfl

/-- Settles O47: each instruction ends in one of its effects. -/
theorem execAlwaysAnswersNext : Obligations.ExecAlwaysAnswersNext := by
  intro i s
  obtain ⟨t, ht, -⟩ := exec_effect i s
  exact ⟨t, ht⟩

/-- The one effect that writes the latch writes nothing else. -/
theorem Effect.eq_with_fault {i : Instr} {s t : State} (e : Effect i s t) (h : t.fault ≠ s.fault) :
    ∃ f, t = { s with fault := some f } := by
  cases e with
  | fault f => exact ⟨f, rfl⟩
  | _ => exact absurd rfl h

/-- Settles O48: of the effects only the fault writes the latch. -/
theorem faultsArePrecise : Obligations.FaultsArePrecise :=
  fun _ _ _ h => (effect_of_exec h).eq_with_fault

/-! Which fault an operation can take from a core without one: read off the latch that it leaves. -/

section FaultTaken

variable {s t : State} {f : FaultRecord} (hs : s.fault = none) (hf : t.fault = some f)
include hs hf

theorem fault_of_withAccess {addr n : Nat} {act : State → State} (hact : (act s).fault = s.fault)
    (h : withAccess addr n act s = .next t) :
    f = ⟨.addressOutOfRange, badAddress addr⟩ ∧ n ≠ 0 ∧ 4096 < addr + n := by
  obtain ⟨-, e⟩ | ⟨hn, hout, e⟩ := withAccess_cases addr n act s
  · obtain rfl := Host.Outcome.next.inj (e.symm.trans h)
    cases (hact.trans hs).symm.trans hf
  · obtain rfl := Host.Outcome.next.inj (e.symm.trans h)
    exact ⟨(Option.some.inj hf).symm, hn, hout⟩

theorem fault_of_skipByKey {x : Index} {pressed : Bool} (h : skipByKey x pressed s = .next t) :
    15 < s.v[x].toNat ∧ f = ⟨.keyOutOfRange, BitVec.ofNat 16 s.v[x].toNat⟩ := by
  by_cases hkey : 15 < (s.getV x).toNat
  · obtain rfl := Host.Outcome.next.inj ((skipByKey_of_no_index pressed hkey).symm.trans h)
    exact ⟨hkey, (Option.some.inj hf).symm⟩
  · have hindex : (s.getV x).toNat < 16 := by omega
    obtain rfl := Host.Outcome.next.inj
      ((skipByKey_of_index (k := ⟨_, hindex⟩) pressed rfl).symm.trans h)
    cases ((State.skipIf_fault s _).trans hs).symm.trans hf

theorem fault_of_call {nnn : Addr12} (h : exec (.call nnn) s = .next t) :
    f = ⟨.stackOverflow, 0⟩ ∧ s.sp = 16 := by
  by_cases hroom : s.sp.val < 16
  · obtain rfl := Host.Outcome.next.inj ((exec_call_of_room nnn hroom).symm.trans h)
    cases hs.symm.trans hf
  · have hfull : s.sp.val = 16 := by omega
    obtain rfl := Host.Outcome.next.inj ((exec_call_of_full nnn hfull).symm.trans h)
    exact ⟨(Option.some.inj hf).symm, Fin.ext hfull⟩

theorem fault_of_ret (h : exec .ret s = .next t) : f = ⟨.stackUnderflow, 0⟩ ∧ s.sp = 0 := by
  by_cases hempty : s.sp.val = 0
  · obtain rfl := Host.Outcome.next.inj ((exec_ret_of_empty hempty).symm.trans h)
    exact ⟨(Option.some.inj hf).symm, Fin.ext hempty⟩
  · have hentry : s.sp.val = s.sp.val - 1 + 1 := by omega
    obtain rfl := Host.Outcome.next.inj
      ((exec_ret_of_entry (top := ⟨s.sp.val - 1, by omega⟩) hentry).symm.trans h)
    cases hs.symm.trans hf

end FaultTaken

/-- Settles O49: eight instructions may fault, each by its one guarded operation; the others keep the latch. -/
theorem faultKindsByInstruction : Obligations.FaultKindsByInstruction := by
  intro i s t f hs h hf
  have hmay : mayFault i = true := by
    by_contra hno
    cases (((effect_of_exec h).fault_eq (Bool.eq_false_of_not_eq_true hno)).trans hs).symm.trans hf
  cases i with
  | call nnn =>
    obtain ⟨rfl, hsp⟩ := fault_of_call hs hf h
    exact .inl ⟨rfl, hsp, nnn, rfl⟩
  | ret =>
    obtain ⟨rfl, hsp⟩ := fault_of_ret hs hf h
    exact .inr (.inl ⟨rfl, hsp, rfl⟩)
  | ldB x =>
    obtain ⟨rfl, -, hout⟩ := fault_of_withAccess hs hf rfl ((exec_ldB x s).symm.trans h)
    exact .inr (.inr (.inl ⟨rfl, .inl ⟨x, rfl, hout⟩⟩))
  | store x =>
    obtain ⟨rfl, -, hout⟩ := fault_of_withAccess hs hf rfl ((exec_store x s).symm.trans h)
    exact .inr (.inr (.inl ⟨rfl, .inr (.inl ⟨x, .inl rfl, hout⟩)⟩))
  | load x =>
    obtain ⟨rfl, -, hout⟩ :=
      fault_of_withAccess hs hf (State.setLowV_fault s x _) ((exec_load x s).symm.trans h)
    exact .inr (.inr (.inl ⟨rfl, .inr (.inl ⟨x, .inr rfl, hout⟩)⟩))
  | draw x y n =>
    obtain ⟨rfl, hn, hout⟩ := fault_of_withAccess hs hf rfl ((exec_draw x y n s).symm.trans h)
    exact .inr (.inr (.inl ⟨rfl, .inr (.inr ⟨x, y, n, rfl, Fin.ne_of_val_ne hn, hout⟩)⟩))
  | skp x => exact .inr (.inr (.inr ⟨x, .inl rfl, fault_of_skipByKey hs hf h⟩))
  | sknp x => exact .inr (.inr (.inr ⟨x, .inr rfl, fault_of_skipByKey hs hf h⟩))
  | _ => cases hmay

/-! ### LoadProgram (60_exceptions.md R191) -/

theorem loadProgram_of_long {image : List Byte} {s : State} (h : 3584 < image.length) :
    loadProgram image s = .refused (.imageTooLong image.length) := by
  rw [loadProgram, if_neg (by simpa [imageFits] using h)]

theorem loadProgram_of_launched {image : List Byte} {s : State} (h : image.length ≤ 3584)
    (hl : s.launching = false) : loadProgram image s = .refused .loadInMidRun := by
  rw [loadProgram, if_pos (by simpa [imageFits] using h), if_neg (by simp [hl])]

/-- Settles O11: an accepted load is one write of the image's bytes, which fit below 4096. -/
theorem loadProgramCopiesImage : Obligations.LoadProgramCopiesImage := by
  refine fun s image hmem => ⟨fun hl hfits => ?_, loadProgram_of_long, loadProgram_of_launched⟩
  have hend : 0x200 + image.length ≤ 4096 := by omega
  exact ⟨_, loadProgram_of_fits hfits hl, rfl, Memory.wf_writeBytes hmem (.inr hend),
    fun _ => Memory.read_writeBytes_inside hmem hend, fun _ => Memory.read_writeBytes_outside⟩

/-! ### StepTimer, KeySet and the reads (60_exceptions.md R185 to R190) -/

/-- Settles O13: StepTimer is one countdown of each timer. -/
theorem timerTickFloorsAtZero : Obligations.TimerTickFloorsAtZero :=
  fun s => ⟨s.stepTimer, rfl, rfl, toNat_countdown s.dt, toNat_countdown s.st⟩

/-- Settles O12: the tone request is the decision of ST > 0, and all else is returned as it stands. -/
theorem readsObserveState : Obligations.ReadsObserveState :=
  fun _ => ⟨⟨rfl, rfl⟩, ⟨rfl, _, rfl, decide_eq_true_iff⟩, ⟨rfl, rfl⟩⟩

/-- A KeySet that is no press event of a waiting core writes the key alone. -/
theorem keySet_of_no_event {s : State} {k : Index} {b : Bool}
    (h : ¬(b = true ∧ s.keys[k] = false ∧ s.wait = true ∧ s.fault = none)) :
    s.keySet k b = { s with keys := s.keys.set k.val b k.isLt } := by
  obtain ⟨hevent, -⟩ | ⟨-, e⟩ := keySet_cases s k b
  · exact absurd hevent h
  · exact e

/-- Settles O14: a press event leaves `State.keyDelivered`, and every other KeySet writes the key alone. -/
theorem keySetWritesKeyAndEndsWait : Obligations.KeySetWritesKeyAndEndsWait := by
  intro s k b
  split
  · rename_i hevent
    obtain ⟨rfl, hup, hwait, hfault⟩ := hevent
    exact ⟨_, congrArg Host.Outcome.next (keySet_press_of_wait hwait hfault hup),
      fun j => getElem_setKey s k j true, rfl, toNat_getElem_v_keyDelivered s k, otherVSame_keyDelivered s k⟩
  · rename_i hno
    exact ⟨_, congrArg Host.Outcome.next (keySet_of_no_event hno), fun j => getElem_setKey s k j b, rfl⟩

/-! ### The halted core (60_exceptions.md R177, R178) -/

theorem stepResult_halted {s : State} {f : FaultRecord} (hf : s.fault = some f) :
    stepResult s = .fault f := by
  rw [stepResult, hf]

theorem keySet_of_halted {s : State} {f : FaultRecord} (hf : s.fault = some f) (k : Index) (b : Bool) :
    s.keySet k b = { s with keys := s.keys.set k.val b k.isLt } :=
  keySet_of_no_event fun ⟨_, _, _, hnone⟩ => by cases hnone.symm.trans hf

/-- Settles O9: a latched fault keeps a StepInstruction from its cycle and a KeySet from being an event, and only
Reset writes the latch. -/
theorem haltedCoreIsSticky : Obligations.HaltedCoreIsSticky := by
  refine fun s f hf => ⟨stepInstruction_halted hf, stepResult_halted hf, fun k b => ?key,
    timerTickFloorsAtZero s, fun x t h hx => (transact_halted hf hx h).1, s.resetAll, rfl, rfl⟩
  case key =>
    exact ⟨_, congrArg Host.Outcome.next (keySet_of_halted hf k b), rfl, fun j => getElem_setKey s k j b⟩

/-! ### Runs with a halted state (60_exceptions.md R177, R178, 70_reset_and_hazards.md R208) -/

/-- The StepInstruction that takes a fault returns it (40_step_cycle.md R94). -/
theorem stepResult_of_fault_taken {s t : State} {f : FaultRecord} (h : stepInstruction s = .next t)
    (ht : t.fault = some f) : stepResult s = .fault f := by
  cases hf : s.fault with
  | some g => cases (stepInstruction_halted hf).symm.trans h
  | none =>
    cases hw : s.wait with
    | true =>
      obtain rfl := Host.Outcome.next.inj ((stepInstruction_waiting hf hw).symm.trans h)
      cases hf.symm.trans ht
    | false =>
      have hcycle : cycle s = .next t := (stepInstruction_running hf hw).symm.trans h
      simp [stepResult, hf, hw, hcycle, ht]

/-- No state that a safe run passes through is halted. -/
theorem SafeRun.fault_eq_none {j k : Nat} {s t : State} (h : SafeRun k s) (hjk : j ≤ k)
    (hrun : RunsTo j s t) : t.fault = none := by
  induction j generalizing k s with
  | zero =>
    obtain rfl := hrun
    cases k with
    | zero => exact h
    | succ k => exact h.1
  | succ j ih =>
    obtain ⟨u, hu, hrest⟩ := hrun
    cases k with
    | zero => omega
    | succ k =>
      obtain ⟨-, w, hw, hsafe⟩ := h
      obtain rfl := Host.Outcome.next.inj (hu.symm.trans hw)
      exact ih hsafe (by omega) hrest

/-- A step of a halted core with no Reset pending keeps the latch, and brings no Reset. -/
theorem step_halted {s t : State} {f : FaultRecord} (hf : s.fault = some f)
    (hreset : Transaction.reset ∉ s.schedule) (h : step s = .next t) :
    t.fault = some f ∧ Transaction.reset ∉ t.schedule := by
  cases hs : s.schedule with
  | nil =>
    rw [step_of_no_schedule hs, stepInstruction_halted hf] at h
    cases h
  | cons x rest =>
    rw [hs] at hreset
    obtain ⟨hx, hrest⟩ := List.ne_and_not_mem_of_not_mem_cons hreset
    rw [step_of_schedule hs] at h
    obtain ⟨hfault, hschedule⟩ := transact_halted (s := { s with schedule := rest }) hf hx.symm h
    exact ⟨hfault, hschedule ▸ hrest⟩

theorem RunsTo.fault_eq_of_halted {k : Nat} {s t : State} {f : FaultRecord} (h : RunsTo k s t)
    (hf : s.fault = some f) (hreset : Transaction.reset ∉ s.schedule) : t.fault = some f := by
  induction k generalizing s with
  | zero => obtain rfl := h; exact hf
  | succ k ih =>
    obtain ⟨u, hu, hrest⟩ := h
    obtain ⟨hfault, hno⟩ := step_halted hf hreset hu
    exact ih hrest hfault hno

/-- Settles O55: the three clauses are facts of one step, of safe runs, and of runs from a halted core. -/
theorem haltedRunNeverCompletes : Obligations.HaltedRunNeverCompletes := by
  refine ⟨fun s t f => stepResult_of_fault_taken, fun j k s t done hjk hrun hfault => ?_,
    fun k s t f hf hreset hrun => hrun.fault_eq_of_halted hf hreset⟩
  have hunsafe : ¬SafeRun k s := fun hsafe => hfault (hsafe.fault_eq_none hjk hrun)
  exact ⟨hunsafe, fun hcompletes => hunsafe hcompletes.1⟩

end Sys2Proof.Machine

/-! ## The family 70_reset_and_hazards.md: a core parked at a jump to its own address -/

namespace Sys2Proof.Machine

/-! ### What the host may change without moving the core (70_reset_and_hazards.md R208) -/

/-- All of s but the timers, the keys and the model's own schedule and launch mark is as in t. -/
def SameCore (s t : State) : Prop :=
  t = { s with dt := t.dt, st := t.st, keys := t.keys, schedule := t.schedule, launching := t.launching }

theorem SameCore.refl (s : State) : SameCore s s := rfl

theorem SameCore.trans {s t u : State} (hst : SameCore s t) (htu : SameCore t u) : SameCore s u := by
  rw [SameCore, hst] at htu
  exact htu

/-- Taking a transaction off the schedule leaves the core as it was. -/
theorem SameCore.of_schedule {s t : State} {rest : List Transaction}
    (h : SameCore { s with schedule := rest } t) : SameCore s t := h

/-- The fixed point reads only PC, memory, WAIT and FAULT. -/
theorem SelfJump.of_sameCore {s t : State} (h : SelfJump s) (e : SameCore s t) : SelfJump t := by
  rw [SameCore] at e
  rw [e]
  exact ⟨h.fault, h.wait, h.fetch, h.jump⟩

/-- Outside the launch, every transaction of a core at a self-jump answers a next state with the same core: a
step jumps in place, and a key press finds no wait to end. -/
theorem SelfJump.exists_transact_sameCore {s : State} {x : Transaction} (h : SelfJump s)
    (hreset : x ≠ .reset) (hload : ∀ image, x ≠ .loadProgram image) :
    ∃ t, transact x s = .next t ∧ SameCore s t ∧ t.schedule = s.schedule := by
  cases x with
  | reset => exact absurd rfl hreset
  | loadProgram image => exact absurd rfl (hload image)
  | stepInstruction => exact ⟨_, h.stepInstruction_eq, rfl, rfl⟩
  | stepTimer => exact ⟨s.stepTimer, rfl, rfl, rfl⟩
  | keySet k b =>
    have hkey : s.keySet k b = { s with keys := s.keys.set k.val b k.isLt } :=
      keySet_of_no_event fun ⟨_, _, hwait, _⟩ => by cases h.wait.symm.trans hwait
    exact ⟨_, congrArg Host.Outcome.next hkey, rfl, rfl⟩
  | readFramebuffer => exact ⟨s, rfl, .refl s, rfl⟩
  | readSound => exact ⟨s, rfl, .refl s, rfl⟩
  | readStatus => exact ⟨s, rfl, .refl s, rfl⟩

/-! ### Runs of a parked core -/

/-- A core at a self-jump with no transaction of the launch pending: the invariant of its runs. -/
structure Parked (s : State) : Prop where
  selfJump : SelfJump s
  noReset : Transaction.reset ∉ s.schedule
  noLoad : ∀ image, Transaction.loadProgram image ∉ s.schedule

theorem Parked.of_sameCore {s t : State} (h : Parked s) (e : SameCore s t)
    (hsub : t.schedule ⊆ s.schedule) : Parked t where
  selfJump := h.selfJump.of_sameCore e
  noReset hx := h.noReset (hsub hx)
  noLoad image hx := h.noLoad image (hsub hx)

/-- A parked core always takes a step, and stays parked with the same core. -/
theorem Parked.exists_step {s : State} (h : Parked s) :
    ∃ t, step s = .next t ∧ SameCore s t ∧ Parked t := by
  cases hs : s.schedule with
  | nil =>
    have e : SameCore s { s with launching := false } := rfl
    exact ⟨_, (step_of_no_schedule hs).trans h.selfJump.stepInstruction_eq, e,
      h.of_sameCore e (List.Subset.refl _)⟩
  | cons x rest =>
    have hx : x ∈ s.schedule := hs ▸ List.mem_cons_self
    have hjump : SelfJump { s with schedule := rest } := h.selfJump.of_sameCore rfl
    obtain ⟨t, ht, e, hschedule⟩ := hjump.exists_transact_sameCore
      (fun hreset => h.noReset (hreset ▸ hx)) (fun image hload => h.noLoad image (hload ▸ hx))
    have hsub : t.schedule ⊆ s.schedule := by
      rw [hschedule, hs]
      exact List.subset_cons_self x rest
    exact ⟨t, (step_of_schedule hs).trans ht, e.of_schedule, h.of_sameCore e.of_schedule hsub⟩

theorem Parked.exists_run {s : State} (h : Parked s) (k : Nat) :
    SafeRun k s ∧ ∃ t, RunsTo k s t ∧ SameCore s t ∧ Parked t := by
  induction k generalizing s with
  | zero => exact ⟨h.selfJump.fault, s, rfl, .refl s, h⟩
  | succ k ih =>
    obtain ⟨u, hu, hsu, hparked⟩ := h.exists_step
    obtain ⟨hsafe, t, hrun, hut, ht⟩ := ih hparked
    exact ⟨⟨h.selfJump.fault, u, hu, hsafe⟩, t, ⟨u, hu, hrun⟩, hsu.trans hut, ht⟩

/-- A run has one end, since the host's run is a function. -/
theorem RunsTo.unique {k : Nat} {s t u : State} (ht : RunsTo k s t) (hu : RunsTo k s u) : t = u :=
  Host.Outcome.next.inj (((runsTo_iff_run k s t).mp ht).symm.trans ((runsTo_iff_run k s u).mp hu))

/-- Settles O56: a core at a self-jump stays parked, so its one run of k steps is safe and ends parked with the
same core. -/
theorem selfJumpRunCompletes : Obligations.SelfJumpRunCompletes := by
  intro k s hjump hreset hload
  have hparked : Parked s := ⟨hjump, hreset, hload⟩
  obtain ⟨hsafe, t, hrun, hsame, ht⟩ := hparked.exists_run k
  exact ⟨⟨hsafe, t, hrun, ht.selfJump⟩, fun u hu => hrun.unique hu ▸ hsame⟩

end Sys2Proof.Machine
